-- ==== Sys2Proof/Word.lean ====
section
/-! DEFINITION. The machine's words: bytes, 16-bit words, register numbers.
The other fixed sizes of 00_scope.md rule R6 are written as their numerals where they are used, so that arithmetic decides facts
about them: `MEM_SIZE` 4096, `PROG_START` 0x200, `STACK_DEPTH` 16, `FB_W` 64, `FB_H` 32, the glyph region's 80 bytes. -/

namespace Sys2Proof

/-- A byte: a general register, a memory byte, a timer, an 8-bit immediate (R6, R20, R50). -/
abbrev Byte := BitVec 8

/-- A 16-bit word: `I`, `pc`, a stack slot, an instruction word (R6, R23, R24, R26, R70). -/
abbrev Word := BitVec 16

/-- A general register's number, V0 to VF (R20): a name among sixteen, never an operand of arithmetic. -/
abbrev Reg := Fin 16

/-- A key's number, 0 to 15 (R28). -/
abbrev Key := Fin 16

/-- VF, the register that doubles as the flag register (R21). -/
abbrev VF : Reg := 15

end Sys2Proof
end

