-- ==== Sys2Proof/Syntax.lean ====
section
/-! DEFINITION. The instruction set: one constructor per row of spec/opcode_table.json, in the table's order
(30_encoding.md rule R74), its operands as R71 and R72 give them. -/

namespace Sys2Proof

/-- The 36 entries of the decoder's table. `x`, `y` are register numbers, `kk` an 8-bit, `nnn` a 12-bit and `n` a 4-bit
immediate (R12). SHR and SHL keep the `y` they ignore (R72, R120, R122), so that no bit of a word is dropped. -/
inductive Instr where
  | cls
  | ret
  | null
  | sys     (nnn : BitVec 12)
  | jp      (nnn : BitVec 12)
  | call    (nnn : BitVec 12)
  | seImm   (x : Reg) (kk : Byte)
  | sneImm  (x : Reg) (kk : Byte)
  | seReg   (x y : Reg)
  | ldImm   (x : Reg) (kk : Byte)
  | addImm  (x : Reg) (kk : Byte)
  | ldReg   (x y : Reg)
  | orReg   (x y : Reg)
  | andReg  (x y : Reg)
  | xorReg  (x y : Reg)
  | addReg  (x y : Reg)
  | subReg  (x y : Reg)
  | shr     (x y : Reg)
  | subnReg (x y : Reg)
  | shl     (x y : Reg)
  | sneReg  (x y : Reg)
  | ldI     (nnn : BitVec 12)
  | jpV0    (nnn : BitVec 12)
  | rnd     (x : Reg) (kk : Byte)
  | drw     (x y : Reg) (n : BitVec 4)
  | skp     (x : Reg)
  | sknp    (x : Reg)
  | ldVxDt  (x : Reg)
  | ldVxK   (x : Reg)
  | ldDtVx  (x : Reg)
  | ldStVx  (x : Reg)
  | addI    (x : Reg)
  | ldF     (x : Reg)
  | ldB     (x : Reg)
  | ldMemVx (x : Reg)
  | ldVxMem (x : Reg)
  deriving DecidableEq, Repr

end Sys2Proof
end

