-- ==== Sys2Proof/Decode.lean ====
section
/-! DEFINITION. The decoder, an ordered table of (pattern, mask) entries searched first match first (30_encoding.md rules
R71, R73, R74, R76), its form over bytes in memory order (20_memory.md rule R53), and the encoder written from the same table. -/

namespace Sys2Proof

/-- The operand fields of R71, extracted from every word whether or not the instruction uses them (R72). -/
structure Fields where
  x   : Reg
  y   : Reg
  n   : BitVec 4
  kk  : Byte
  nnn : BitVec 12
  deriving DecidableEq, Repr

/-- R71: `x = w[11:8]`, `y = w[7:4]`, `n = w[3:0]`, `kk = w[7:0]`, `nnn = w[11:0]`. -/
def fieldsOf (w : Word) : Fields where
  x   := (w.extractLsb' 8 4).toFin
  y   := (w.extractLsb' 4 4).toFin
  n   := w.extractLsb' 0 4
  kk  := w.extractLsb' 0 8
  nnn := w.extractLsb' 0 12

/-- One entry of the priority table: its pattern, its mask, and the instruction it selects with the word's fields. -/
structure DecodeRow where
  pattern : Word
  mask    : Word
  build   : Fields → Instr

/-- `(word & mask) == (pattern & mask)` (R73). -/
def DecodeRow.hits (e : DecodeRow) (w : Word) : Bool := w &&& e.mask == e.pattern &&& e.mask

/-- Entries 1 to 9 of R74. -/
def decodeTableControl : List DecodeRow :=
  [ ⟨0x00E0, 0xFFFF, fun _ => .cls⟩,
    ⟨0x00EE, 0xFFFF, fun _ => .ret⟩,
    ⟨0x0000, 0xFFFF, fun _ => .null⟩,
    ⟨0x0000, 0xF000, fun f => .sys f.nnn⟩,
    ⟨0x1000, 0xF000, fun f => .jp f.nnn⟩,
    ⟨0x2000, 0xF000, fun f => .call f.nnn⟩,
    ⟨0x3000, 0xF000, fun f => .seImm f.x f.kk⟩,
    ⟨0x4000, 0xF000, fun f => .sneImm f.x f.kk⟩,
    ⟨0x5000, 0xF00F, fun f => .seReg f.x f.y⟩ ]

/-- Entries 10 to 20 of R74. -/
def decodeTableAlu : List DecodeRow :=
  [ ⟨0x6000, 0xF000, fun f => .ldImm f.x f.kk⟩,
    ⟨0x7000, 0xF000, fun f => .addImm f.x f.kk⟩,
    ⟨0x8000, 0xF00F, fun f => .ldReg f.x f.y⟩,
    ⟨0x8001, 0xF00F, fun f => .orReg f.x f.y⟩,
    ⟨0x8002, 0xF00F, fun f => .andReg f.x f.y⟩,
    ⟨0x8003, 0xF00F, fun f => .xorReg f.x f.y⟩,
    ⟨0x8004, 0xF00F, fun f => .addReg f.x f.y⟩,
    ⟨0x8005, 0xF00F, fun f => .subReg f.x f.y⟩,
    ⟨0x8006, 0xF00F, fun f => .shr f.x f.y⟩,
    ⟨0x8007, 0xF00F, fun f => .subnReg f.x f.y⟩,
    ⟨0x800E, 0xF00F, fun f => .shl f.x f.y⟩ ]

/-- Entries 21 to 27 of R74. -/
def decodeTableMisc : List DecodeRow :=
  [ ⟨0x9000, 0xF00F, fun f => .sneReg f.x f.y⟩,
    ⟨0xA000, 0xF000, fun f => .ldI f.nnn⟩,
    ⟨0xB000, 0xF000, fun f => .jpV0 f.nnn⟩,
    ⟨0xC000, 0xF000, fun f => .rnd f.x f.kk⟩,
    ⟨0xD000, 0xF000, fun f => .drw f.x f.y f.n⟩,
    ⟨0xE09E, 0xF0FF, fun f => .skp f.x⟩,
    ⟨0xE0A1, 0xF0FF, fun f => .sknp f.x⟩ ]

/-- Entries 28 to 36 of R74. -/
def decodeTableF : List DecodeRow :=
  [ ⟨0xF007, 0xF0FF, fun f => .ldVxDt f.x⟩,
    ⟨0xF00A, 0xF0FF, fun f => .ldVxK f.x⟩,
    ⟨0xF015, 0xF0FF, fun f => .ldDtVx f.x⟩,
    ⟨0xF018, 0xF0FF, fun f => .ldStVx f.x⟩,
    ⟨0xF01E, 0xF0FF, fun f => .addI f.x⟩,
    ⟨0xF029, 0xF0FF, fun f => .ldF f.x⟩,
    ⟨0xF033, 0xF0FF, fun f => .ldB f.x⟩,
    ⟨0xF055, 0xF0FF, fun f => .ldMemVx f.x⟩,
    ⟨0xF065, 0xF0FF, fun f => .ldVxMem f.x⟩ ]

/-- The priority table of R74, in evaluation order. -/
def decodeTable : List DecodeRow :=
  decodeTableControl ++ decodeTableAlu ++ decodeTableMisc ++ decodeTableF

/-- R76: the first entry that matches, with the word's fields; `none` for an illegal word (R77, R78). -/
def decode (w : Word) : Option Instr :=
  (decodeTable.find? (·.hits w)).map (·.build (fieldsOf w))

/-- Why a sequence of bytes is no instruction. -/
inductive DecodeReject where
  /-- fewer than the two bytes of an instruction word -/
  | truncated
  /-- the word matches no entry of R74 (R77) -/
  | unknownInstruction (w : Word)
  deriving DecidableEq, Repr

/-- R53: the byte at the lower address is `w[15:8]`. -/
def wordOfBytes (hi lo : Byte) : Word := hi ++ lo

/-- The byte of a word that is stored at the lower address (R53). -/
def highByte (w : Word) : Byte := w.extractLsb' 8 8

/-- The byte of a word that is stored at the higher address (R53). -/
def lowByte (w : Word) : Byte := w.extractLsb' 0 8

/-- The decoder over bytes in memory order: the instruction and the bytes after it, or a rejection by name. -/
def decodeBytes : List Byte → Except DecodeReject (Instr × List Byte)
  | hi :: lo :: rest =>
    match decode (wordOfBytes hi lo) with
    | some i => .ok (i, rest)
    | none => .error (.unknownInstruction (wordOfBytes hi lo))
  | _ => .error .truncated

/-- The bytes, in memory order, of an instruction whose bits are `w` as spec/opcode_table.json numbers them, the bits from
`nbits` up being 0. Every instruction is one 16-bit word (R70). -/
def tableBytes (nbits w : Nat) : List Byte :=
  [highByte (BitVec.ofNat 16 (w % 2 ^ nbits)), lowByte (BitVec.ofNat 16 (w % 2 ^ nbits))]

/-- What the decoder reads from the table's word. -/
def decodeTableWord (nbits w : Nat) : Option Instr :=
  match decodeBytes (tableBytes nbits w) with
  | .ok (i, _) => some i
  | .error _ => none

/-- A word of format nnn: opcode nibble and the low twelve bits (R71). -/
def wordNnn (op : BitVec 4) (nnn : BitVec 12) : Word := op ++ nnn

/-- A word of format x,kk (R71). -/
def wordXkk (op : BitVec 4) (x : Reg) (kk : Byte) : Word := op ++ (BitVec.ofFin x : BitVec 4) ++ kk

/-- A word of format x,y,n (R71). -/
def wordXyn (op : BitVec 4) (x y : Reg) (n : BitVec 4) : Word :=
  op ++ (BitVec.ofFin x : BitVec 4) ++ (BitVec.ofFin y : BitVec 4) ++ n

/-- The word of an instruction (R71, R74). -/
def encode : Instr → Word
  | .cls => 0x00E0
  | .ret => 0x00EE
  | .null => 0x0000
  | .sys nnn => wordNnn 0x0 nnn
  | .jp nnn => wordNnn 0x1 nnn
  | .call nnn => wordNnn 0x2 nnn
  | .seImm x kk => wordXkk 0x3 x kk
  | .sneImm x kk => wordXkk 0x4 x kk
  | .seReg x y => wordXyn 0x5 x y 0x0
  | .ldImm x kk => wordXkk 0x6 x kk
  | .addImm x kk => wordXkk 0x7 x kk
  | .ldReg x y => wordXyn 0x8 x y 0x0
  | .orReg x y => wordXyn 0x8 x y 0x1
  | .andReg x y => wordXyn 0x8 x y 0x2
  | .xorReg x y => wordXyn 0x8 x y 0x3
  | .addReg x y => wordXyn 0x8 x y 0x4
  | .subReg x y => wordXyn 0x8 x y 0x5
  | .shr x y => wordXyn 0x8 x y 0x6
  | .subnReg x y => wordXyn 0x8 x y 0x7
  | .shl x y => wordXyn 0x8 x y 0xE
  | .sneReg x y => wordXyn 0x9 x y 0x0
  | .ldI nnn => wordNnn 0xA nnn
  | .jpV0 nnn => wordNnn 0xB nnn
  | .rnd x kk => wordXkk 0xC x kk
  | .drw x y n => wordXyn 0xD x y n
  | .skp x => wordXkk 0xE x 0x9E
  | .sknp x => wordXkk 0xE x 0xA1
  | .ldVxDt x => wordXkk 0xF x 0x07
  | .ldVxK x => wordXkk 0xF x 0x0A
  | .ldDtVx x => wordXkk 0xF x 0x15
  | .ldStVx x => wordXkk 0xF x 0x18
  | .addI x => wordXkk 0xF x 0x1E
  | .ldF x => wordXkk 0xF x 0x29
  | .ldB x => wordXkk 0xF x 0x33
  | .ldMemVx x => wordXkk 0xF x 0x55
  | .ldVxMem x => wordXkk 0xF x 0x65

/-- The two bytes of an instruction in memory order. -/
def encodeBytes (i : Instr) : List Byte := [highByte (encode i), lowByte (encode i)]

end Sys2Proof
end

