-- ==== Sys2Proof/Config.lean ====
section
/-! DEFINITION. What is fixed for a run and no instruction changes: the variant options of 00_scope.md rule R8,
the glyph region's place and bytes (R7), and the free value behind the random source (D18). The defaults stand in
Sys2Proof/Machine/Options.lean. -/

namespace Sys2Proof

/-- `ZERO_WORD_POLICY` (R8, R92): what the word 0x0000 does. -/
inductive ZeroWordPolicy where
  | nop
  | fatal
  deriving DecidableEq, Repr

/-- `BLOCK_I_MODE` (R8, R136): whether FX55 and FX65 advance `I`. -/
inductive BlockIMode where
  | unchanged
  | advance
  deriving DecidableEq, Repr

/-- `VF_DEST_ORDER` (R8, R111): which write wins when a flag-writing instruction's destination is VF. -/
inductive VfDestOrder where
  | flagLast
  | resultLast
  deriving DecidableEq, Repr

/-- `DRAW_VF` (R8, R171): whether DXYN reports a collision in VF. -/
inductive DrawVf where
  | unchanged
  | collision
  deriving DecidableEq, Repr

/-- The parameters of R7 and R8. -/
structure Config where
  zeroWordPolicy : ZeroWordPolicy
  blockIMode     : BlockIMode
  vfDestOrder    : VfDestOrder
  drawVf         : DrawVf
  /-- `FONT_BASE`: the address of glyph 0. -/
  fontBase       : Nat
  /-- `FONT_DATA`: the glyph bytes, five to a glyph, top row first (R37). -/
  fontData       : Vector Byte 80
  deriving DecidableEq, Repr

/-- R7's constraint on `FONT_BASE`: the glyph region lies below the program region. -/
abbrev Config.Legal (c : Config) : Prop := c.fontBase + 80 ≤ 0x200

/-- The random source's byte at its `n`-th draw, where the state names no byte that the host supplies (R123, D18):
a FREE VALUE, under no law (notes/assumptions/5.md). -/
opaque Config.freeRandom : Nat → Byte

end Sys2Proof
end

