-- ==== Sys2Proof/Machine/Options.lean ====
section
/-! DEFINITION. The default parameters of 00_scope.md rules R7 and R8, and what memory holds after reset (10_state.md rules
R36, R37). -/

namespace Sys2Proof

/-- The default `FONT_DATA`, the table of 10_state.md rule R37.
PRESUMED (by the spec, from general knowledge): notes/assumptions/2.md. -/
def defaultFont : Vector Byte 80 := ⟨#[
    0xF0, 0x90, 0x90, 0x90, 0xF0,  0x20, 0x60, 0x20, 0x20, 0x70,
    0xF0, 0x10, 0xF0, 0x80, 0xF0,  0xF0, 0x10, 0xF0, 0x10, 0xF0,
    0x90, 0x90, 0xF0, 0x10, 0x10,  0xF0, 0x80, 0xF0, 0x10, 0xF0,
    0xF0, 0x80, 0xF0, 0x90, 0xF0,  0xF0, 0x10, 0x20, 0x40, 0x40,
    0xF0, 0x90, 0xF0, 0x90, 0xF0,  0xF0, 0x90, 0xF0, 0x10, 0xF0,
    0xF0, 0x90, 0xF0, 0x90, 0x90,  0xE0, 0x90, 0xE0, 0x90, 0xE0,
    0xF0, 0x80, 0x80, 0x80, 0xF0,  0xE0, 0x90, 0x90, 0x90, 0xE0,
    0xF0, 0x80, 0xF0, 0x80, 0xF0,  0xF0, 0x80, 0xF0, 0x80, 0x80], rfl⟩

/-- The defaults of R7 and R8. -/
def Config.default : Config where
  zeroWordPolicy := .fatal
  blockIMode     := .unchanged
  vfDestOrder    := .flagLast
  drawVf         := .unchanged
  fontBase       := 0x000
  fontData       := defaultFont

/-- The byte an address holds after reset and before the program load: the glyph region holds `FONT_DATA`, every
other address 0 (R36, R37). It is what an address reads as that the memory list does not list. -/
def Config.resetByte (c : Config) (a : Nat) : Byte :=
  if h : c.fontBase ≤ a ∧ a < c.fontBase + 80 then c.fontData[a - c.fontBase]'(by omega) else 0

end Sys2Proof
end

