-- ==== Sys2Proof/Machine/State.lean ====
section
/-! DEFINITION. The machine's state as plain data (10_state.md), the reasons a step can stop, the actions of the three agents
(60_exceptions.md rules R183, R190), and the state after reset (R36, R200). -/

namespace Sys2Proof.Machine

/-- The engine state ES (R30). -/
inductive EngineState where
  | idle
  | waiting
  | faulted
  | stopped
  deriving DecidableEq, Repr

/-- The engine's faults (R180). Taking one is an ordinary next state (R182), not an outcome of the host's kind `fault`. -/
inductive FaultCode where
  | outOfBoundsRead
  | outOfBoundsWrite
  | stackOverflow
  | stackUnderflow
  | unknownInstruction
  | nullInstruction
  deriving DecidableEq, Repr

/-- The fault record FR (R31, R181): the code, the faulting instruction's address, and its word, absent for a fetch fault. -/
structure FaultRecord where
  code : FaultCode
  pc   : Word
  word : Option Word
  deriving DecidableEq, Repr

/-- The atomic actions of the three agents: the engine's step, the timer agent's two actions (R153), and the host's
operations that change the block (R190). -/
inductive Action where
  | engineStep
  | decDT
  | decST
  | setKey (k : Option Key)
  | setStop
  | reset
  | load (image : List Byte)
  deriving DecidableEq, Repr

/-- The framebuffer `FB[c][r]`: 64 columns of 32 pixels, column 0 leftmost, row 0 at the top (R32). -/
abbrev Frame := Vector (Vector Bool 32) 64

/-- The listed bytes of memory: addresses strictly rising, no entry equal to what its address reads as when unlisted. -/
abbrev Memory := List Host.Cell

/-- The state. The fields from `v` to `mem` are the spec's; `cfg` is the run's configuration, and the last four are the
model's own: which action comes next, whether the first step has been taken, and the random source's bytes. -/
structure State where
  /-- the parameters of R7 and R8, fixed for a run (R33; notes/assumptions/1.md) -/
  cfg     : Config
  /-- V0 to VF (R20) -/
  v       : Vector Byte 16
  /-- the address register I (R23) -/
  i       : Word
  /-- the program counter (R24) -/
  pc      : Word
  /-- the number of return addresses on the stack, 0 to 16 (R25) -/
  sp      : Fin 17
  /-- the slots S[1] to S[16], slot `k` at index `k - 1` (R26) -/
  stack   : Vector Word 16
  /-- the delay timer (R27) -/
  dt      : Byte
  /-- the sound timer (R27) -/
  st      : Byte
  /-- KEY: none, or a key number 0 to 15 (R28) -/
  key     : Option Key
  /-- the stop flag (R29) -/
  stop    : Bool
  /-- the engine state (R30) -/
  es      : EngineState
  /-- the fault record, empty before any fault (R31) -/
  fr      : Option FaultRecord
  /-- the framebuffer (R32) -/
  fb      : Frame
  /-- the memory (R50) -/
  mem     : Memory
  /-- a step has been taken since reset, so that no image may be loaded (R190, R203) -/
  started : Bool
  /-- the actions to come, first to last; past its end only the engine acts (R183; notes/assumptions/4.md) -/
  agenda  : List Action
  /-- the bytes the host's random source answers the next draws with (R123, R190; notes/assumptions/5.md) -/
  rndIn   : List Byte
  /-- how many draws found `rndIn` empty: the index of the next free value -/
  rndUsed : Nat
  deriving DecidableEq, Repr

/-- Why the machine takes no engine step. Both are safe: the spec gives no step there (R182, R183). -/
inductive Fault where
  /-- raised by an engine step when ES = Faulted: only reset leaves Faulted (R182, R186); safe -/
  | engineFaulted
  /-- raised by an engine step when ES = Stopped: only reset leaves Stopped (R159, R186); safe -/
  | engineStopped
  deriving DecidableEq, Repr

/-- Why an action is turned away. -/
inductive Refusal where
  /-- raised by an arm of `exec` whose instruction has no meaning yet; no arm raises it; safe -/
  | notModelled (mnemonic : String)
  /-- raised by the action `load` once a step has been taken: the spec refuses it (R203, D26); safe -/
  | loadAfterFirstStep
  /-- raised by `decDT` or `decST` on the agenda when the action is not enabled (R153): no run contains it; safe -/
  | timerNotEnabled
  deriving DecidableEq, Repr

/-- What the machine's actions answer. -/
abbrev Result := Host.Outcome State Fault Refusal

/-- Every pixel off (R36, R91). -/
def Frame.clear : Frame := Vector.replicate 64 (Vector.replicate 32 false)

/-- R36: the value of every piece of state after reset, before the program image is loaded, under the parameters `c`. Memory
lists nothing: its reset contents are what unlisted addresses read as. -/
def State.resetWith (c : Config) : State where
  cfg     := c
  v       := Vector.replicate 16 0
  i       := 0
  pc      := BitVec.ofNat 16 0x200
  sp      := 0
  stack   := Vector.replicate 16 0
  dt      := 0
  st      := 0
  key     := none
  stop    := false
  es      := .idle
  fr      := none
  fb      := Frame.clear
  mem     := []
  started := false
  agenda  := []
  rndIn   := []
  rndUsed := 0

/-- The machine right after reset, under the default parameters. -/
def State.reset : State := State.resetWith Config.default

end Sys2Proof.Machine
end

