-- ==== Sys2Proof/Machine/Operands.lean ====
section
/-! DEFINITION. Reading and writing the operands: registers, the address register, stack slots, the key register, immediates
(00_scope.md rule R11, 10_state.md). -/

namespace Sys2Proof.Machine

/-- `V[x]` (R11, R20). -/
def State.reg (s : State) (x : Reg) : Byte := s.v.get x

/-- `V[x] <- b` (R11, R20). -/
def State.setReg (s : State) (x : Reg) (b : Byte) : State := { s with v := s.v.set x b }

/-- V0 to Vx, the registers a block transfer moves (R134). -/
def State.regsUpTo (s : State) (x : Reg) : List Byte := s.v.toList.take (x.val + 1)

/-- `V[k] <- f k` for every `k` from 0 to `x` (R135). -/
def State.setRegsUpTo (s : State) (x : Reg) (f : Nat → Byte) : State :=
  { s with v := Vector.ofFn fun k : Fin 16 => if k ≤ x then f k else s.v.get k }

/-- `I <- w` (R23). -/
def State.setI (s : State) (w : Word) : State := { s with i := w }

/-- `DT <- b`, one atomic store (R60, R151). -/
def State.setDT (s : State) (b : Byte) : State := { s with dt := b }

/-- `ST <- b`, one atomic store (R60, R152). -/
def State.setST (s : State) (b : Byte) : State := { s with st := b }

/-- Slot `S[k]`, for `k` from 1 to 16 (R26); no instruction asks for another. -/
def State.slot (s : State) (k : Nat) : Word := (s.stack[k - 1]?).getD 0

/-- `zext_16(nnn)` (R72). -/
def zextAddr (nnn : BitVec 12) : Word := nnn.setWidth 16

/-- `zext_16(V[x])` (R97, R131). -/
def zextByte (b : Byte) : Word := b.setWidth 16

/-- `zext_8(k)` (R157). -/
def byteOfKey (k : Key) : Byte := BitVec.ofNat 8 k.val

/-- The key in `b` is the one pressed: KEY is not none and equals `b` (R155). -/
def State.keyIs (s : State) (b : Byte) : Bool :=
  match s.key with
  | none => false
  | some k => k.val == b.toNat

end Sys2Proof.Machine
end

