-- ==== Sys2Proof/Machine/Flags.lean ====
section
/-! DEFINITION. The flag computations of the ALU and the shared write-back (41_alu.md rules R110, R111, R118 to R122). -/

namespace Sys2Proof.Machine

/-- A flag's byte: exactly 0 or 1 (R110). -/
def flagByte (f : Bool) : Byte := if f then 1 else 0

/-- 8XY4: the unsigned sum exceeds 255 (R118). -/
def carryOut (a b : Byte) : Bool := a.toNat + b.toNat > 255

/-- 8XY5 and 8XY7: no borrow, strictly `a > b` (R119, R121). -/
def noBorrow (a b : Byte) : Bool := a.toNat > b.toNat

/-- 8XY6: the bit shifted out on the right, bit 0 (R120). -/
def shiftedOutLow (a : Byte) : Bool := a.getLsbD 0

/-- 8XYE: the bit shifted out on the left, bit 7 (R122). -/
def shiftedOutHigh (a : Byte) : Bool := a.getLsbD 7

/-- `writeback(x, r, f)` (R110): the two writes in the order `VF_DEST_ORDER` gives. -/
def State.writeback (s : State) (x : Reg) (r : Byte) (f : Bool) : State :=
  match s.cfg.vfDestOrder with
  | .flagLast => (s.setReg x r).setReg VF (flagByte f)
  | .resultLast => (s.setReg VF (flagByte f)).setReg x r

end Sys2Proof.Machine
end

