-- ==== Sys2Proof/Machine/Ops.lean ====
section
/-! DEFINITION. The shared operations: memory (20_memory.md), how an instruction ends (40_control.md rule R90), taking a
fault (60_exceptions.md rules R181, R182), the call stack, and the random draw. -/

namespace Sys2Proof.Machine

/-- The byte a memory list gives an address, if it lists it. -/
def cellsFind (a : Nat) : Memory → Option Byte
  | [] => none
  | (k, x) :: rest => if k = a then some x else cellsFind a rest

/-- A cell in front of a list, or nothing. -/
def cellsCons (a : Nat) (b : Option Byte) (m : Memory) : Memory :=
  match b with
  | none => m
  | some x => (a, x) :: m

/-- The list with address `a` set to `b`, or with `a` unlisted; the addresses stay rising. -/
def cellsPut (a : Nat) (b : Option Byte) : Memory → Memory
  | [] => cellsCons a b []
  | (k, x) :: rest =>
    if k < a then (k, x) :: cellsPut a b rest
    else if k = a then cellsCons a b rest
    else cellsCons a b ((k, x) :: rest)

/-- The canonical form: addresses strictly rising and below `MEM_SIZE`, no entry equal to its address's reset byte. -/
abbrev Memory.wf (c : Config) (m : Memory) : Prop :=
  m.Pairwise (fun p q => p.1 < q.1) ∧ ∀ p ∈ m, p.1 < 4096 ∧ p.2 ≠ c.resetByte p.1

/-- The state's memory is in canonical form. -/
abbrev State.memWf (s : State) : Prop := Memory.wf s.cfg s.mem

/-- `MemRead(a, 1)` (R11). Never executed with `a >= MEM_SIZE`: every instruction checks its range first (R52). -/
def State.readByte (s : State) (a : Nat) : Byte := (cellsFind a s.mem).getD (s.cfg.resetByte a)

/-- `MemWrite(a, 1, b)` (R11): the byte at `a` becomes `b`. Never executed with `a >= MEM_SIZE` (R52); it would write
nothing. -/
def State.writeByte (s : State) (a : Nat) (b : Byte) : State :=
  if a < 4096 then
    { s with mem := cellsPut a (if b = s.cfg.resetByte a then none else some b) s.mem }
  else s

/-- The `n` bytes from `a` up. -/
def State.readBytes (s : State) (a : Nat) : Nat → List Byte
  | 0 => []
  | n + 1 => s.readByte a :: s.readBytes (a + 1) n

/-- Bytes written one after the other from `a` up. -/
def State.storeBytes (s : State) (a : Nat) : List Byte → State
  | [] => s
  | b :: bs => (s.writeByte a b).storeBytes (a + 1) bs

/-- The instruction word at `pc`, big-endian (R53); none when `pc + 1 >= MEM_SIZE` (R52). No alignment is asked (R55). -/
def State.fetch (s : State) : Option Word :=
  if s.pc.toNat + 1 ≥ 4096 then none
  else some (wordOfBytes (s.readByte s.pc.toNat) (s.readByte (s.pc.toNat + 1)))

/-- The instruction ends and sets the pc to `t`; the engine is Idle (R90). -/
def State.goto (s : State) (t : Word) : State := { s with pc := t, es := .idle }

/-- `next`: the automatic advance `pc <- (pc + 2) mod 2^16` (R90). -/
def State.advance (s : State) : State := s.goto (s.pc + 2)

/-- `skip`: `pc <- (pc + 4) mod 2^16` (R90). -/
def State.skipNext (s : State) : State := s.goto (s.pc + 4)

/-- `if c: skip else next` (R98 to R101, R155, R156). -/
def State.skipIf (s : State) (c : Bool) : State := if c then s.skipNext else s.advance

/-- `hold`: nothing written but ES <- Waiting (R90, R157). -/
def State.hold (s : State) : State := { s with es := .waiting }

/-- Taking a fault (R181, R182): ES <- Faulted, FR <- (code, pc, word), and nothing else written. There is no return from
it but reset (R186). -/
def State.raise (s : State) (f : FaultCode) (w : Option Word) : State :=
  { s with es := .faulted, fr := some ⟨f, s.pc, w⟩ }

/-- `raise F(pc, w)` by the instruction `i` itself: the recorded word is `i`'s (R181). -/
def State.raiseBy (s : State) (f : FaultCode) (i : Instr) : State := s.raise f (some (encode i))

/-- The numeric code of a fault (R180, D15). -/
def FaultCode.number : FaultCode → Nat
  | .outOfBoundsRead => 1
  | .outOfBoundsWrite => 2
  | .stackOverflow => 3
  | .stackUnderflow => 4
  | .unknownInstruction => 5
  | .nullInstruction => 6

/-- `S[SP + 1] <- w; SP <- SP + 1`, when `SP < 16` (R96); with a full stack nothing, which no instruction asks for. -/
def State.push (s : State) (w : Word) : State :=
  if h : s.sp.val < 16 then
    { s with stack := s.stack.set s.sp.val w, sp := ⟨s.sp.val + 1, by omega⟩ }
  else s

/-- `SP <- SP - 1`; the popped slot keeps its value (R26, R94). -/
def State.pop (s : State) : State := { s with sp := ⟨s.sp.val - 1, by omega⟩ }

/-- The step sees STOP: ES <- Stopped, and nothing else (R90, R159). -/
def State.halt (s : State) : State := { s with es := .stopped }

/-- KEY <- k, one atomic store (R60, R158). -/
def State.setKey (s : State) (k : Option Key) : State := { s with key := k }

/-- STOP <- 1, one atomic store (R60, R159). -/
def State.setStop (s : State) : State := { s with stop := true }

/-- The agenda becomes `as`. -/
def State.setAgenda (s : State) (as : List Action) : State := { s with agenda := as }

/-- A step has been taken (R203): no image may be loaded from here on. -/
def State.markStarted (s : State) : State := { s with started := true }

/-- The byte of the next draw (R123, D18): the host's next byte, or a free value where the state names none. -/
def State.rndByte (s : State) : Byte :=
  match s.rndIn with
  | b :: _ => b
  | [] => Config.freeRandom s.rndUsed

/-- The draw is used up: each execution of CXKK draws afresh (R123, D18). -/
def State.rndTaken (s : State) : State :=
  match s.rndIn with
  | _ :: rest => { s with rndIn := rest }
  | [] => { s with rndUsed := s.rndUsed + 1 }

/-- The last step of FX55 and FX65 (R136): under `Advance`, `I <- (I + x + 1) mod 2^16`. -/
def State.advanceI (s : State) (x : Reg) : State :=
  match s.cfg.blockIMode with
  | .unchanged => s
  | .advance => s.setI (BitVec.ofNat 16 (s.i.toNat + x.val + 1))

/-- The two bytes of a word stored at `a` and `a + 1`, as a fetch reads them (R53). -/
def State.placeWord (s : State) (a : Nat) (w : Word) : State := s.storeBytes a [highByte w, lowByte w]

end Sys2Proof.Machine
end

