-- ==== Sys2Proof/Machine/Alu.lean ====
section
/-! DEFINITION. Register loads, the 8-bit ALU and the random byte (41_alu.md rules R110 to R123). Every operand is read
before any register is written (D8). -/

namespace Sys2Proof.Machine

/-- 6XKK LD Vx, kk (R112). -/
def execLdImm (x : Reg) (kk : Byte) (s : State) : Result := .next (s.setReg x kk).advance

/-- 7XKK ADD Vx, kk (R113): no flag. -/
def execAddImm (x : Reg) (kk : Byte) (s : State) : Result := .next (s.setReg x (s.reg x + kk)).advance

/-- 8XY0 LD Vx, Vy (R114). -/
def execLdReg (x y : Reg) (s : State) : Result := .next (s.setReg x (s.reg y)).advance

/-- 8XY1 OR Vx, Vy (R115): VF is not cleared. -/
def execOrReg (x y : Reg) (s : State) : Result := .next (s.setReg x (s.reg x ||| s.reg y)).advance

/-- 8XY2 AND Vx, Vy (R116): VF is not cleared. -/
def execAndReg (x y : Reg) (s : State) : Result := .next (s.setReg x (s.reg x &&& s.reg y)).advance

/-- 8XY3 XOR Vx, Vy (R117): VF is not cleared. -/
def execXorReg (x y : Reg) (s : State) : Result := .next (s.setReg x (s.reg x ^^^ s.reg y)).advance

/-- 8XY4 ADD Vx, Vy (R118): VF is the carry. -/
def execAddReg (x y : Reg) (s : State) : Result :=
  .next (s.writeback x (s.reg x + s.reg y) (carryOut (s.reg x) (s.reg y))).advance

/-- 8XY5 SUB Vx, Vy (R119): VF is no-borrow, strictly Vx > Vy. -/
def execSubReg (x y : Reg) (s : State) : Result :=
  .next (s.writeback x (s.reg x - s.reg y) (noBorrow (s.reg x) (s.reg y))).advance

/-- 8XY6 SHR Vx (R120): `y` is ignored. -/
def execShr (x : Reg) (s : State) : Result :=
  .next (s.writeback x (s.reg x >>> 1) (shiftedOutLow (s.reg x))).advance

/-- 8XY7 SUBN Vx, Vy (R121): VF is no-borrow, strictly Vy > Vx. -/
def execSubnReg (x y : Reg) (s : State) : Result :=
  .next (s.writeback x (s.reg y - s.reg x) (noBorrow (s.reg y) (s.reg x))).advance

/-- 8XYE SHL Vx (R122): `y` is ignored. -/
def execShl (x : Reg) (s : State) : Result :=
  .next (s.writeback x (s.reg x <<< 1) (shiftedOutHigh (s.reg x))).advance

/-- CXKK RND Vx, kk (R123). -/
def execRnd (x : Reg) (kk : Byte) (s : State) : Result :=
  .next (s.rndTaken.setReg x (s.rndByte &&& kk)).advance

end Sys2Proof.Machine
end

