-- ==== Sys2Proof/Machine/Compositor.lean ====
section
/-! DEFINITION. The framebuffer compositor (44_draw.md rules R170 to R172): it holds no state but the framebuffer. -/

namespace Sys2Proof.Machine

/-- `FB[c][r]` (R32). -/
def Frame.pixel (fb : Frame) (c : Fin 64) (r : Fin 32) : Bool := (fb.get c).get r

/-- `FB[c][r] <- FB[c][r] ^ 1` (R170). -/
def Frame.toggle (fb : Frame) (c : Fin 64) (r : Fin 32) : Frame :=
  fb.set c ((fb.get c).set r (!fb.pixel c r))

/-- Column `n` of the toroidal surface: `n mod FB_W` (R172). -/
def columnOf (n : Nat) : Fin 64 := ⟨n % 64, Nat.mod_lt _ (by decide)⟩

/-- Row `n` of the toroidal surface: `n mod FB_H` (R172). -/
def rowOf (n : Nat) : Fin 32 := ⟨n % 32, Nat.mod_lt _ (by decide)⟩

/-- The bit of a sprite row that stands in column `c` of it: `b[7 - c]`, the most significant bit leftmost (R170). -/
def spriteBit (b : Byte) (c : Nat) : Bool := b.getLsbD (7 - c)

/-- One sprite row drawn at column `ox`, row `y`: for each of its columns `c` in turn, a set bit toggles its pixel (R170). -/
def Frame.drawRow (ox y : Nat) (b : Byte) (fb : Frame) : List Nat → Frame
  | [] => fb
  | c :: cs =>
    Frame.drawRow ox y b (if spriteBit b c then fb.toggle (columnOf (ox + c)) (rowOf y) else fb) cs

/-- `draw(originX, originY, spriteBytes, rowCount)` (R172), the rows from the top. -/
def Frame.draw (ox oy : Nat) (fb : Frame) : List Byte → Frame
  | [] => fb
  | b :: bs => Frame.draw ox (oy + 1) (Frame.drawRow ox oy b fb (List.range 8)) bs

/-- Some pixel that was on in `before` is off in `after` (R171). -/
def Frame.erasedSome (before after : Frame) : Bool :=
  (List.finRange 64).any fun c => (List.finRange 32).any fun r => before.pixel c r && !after.pixel c r

/-- The framebuffer becomes `fb` (R32). -/
def State.setFrame (s : State) (fb : Frame) : State := { s with fb := fb }

/-- The collision flag of R171: VF is written only under `DRAW_VF = Collision`. -/
def State.setCollision (s : State) (hit : Bool) : State :=
  match s.cfg.drawVf with
  | .unchanged => s
  | .collision => s.setReg VF (flagByte hit)

end Sys2Proof.Machine
end

