-- ==== Sys2Proof/Machine/Control.lean ====
section
/-! DEFINITION. Control, and compare-and-skip (40_control.md rules R91 to R101). -/

namespace Sys2Proof.Machine

/-- 00E0 CLS (R91). -/
def execCls (s : State) : Result := .next (s.setFrame Frame.clear).advance

/-- 00EE RET (R94): the popped slot holds the CALL's address, and the uniform advance adds 2. -/
def execRet (s : State) : Result :=
  if s.sp.val = 0 then .next (s.raiseBy .stackUnderflow .ret)
  else .next (s.pop.goto (s.slot s.sp.val + 2))

/-- 0000 NULL (R92). -/
def execNull (s : State) : Result :=
  match s.cfg.zeroWordPolicy with
  | .fatal => .next (s.raiseBy .nullInstruction .null)
  | .nop => .next s.advance

/-- 0NNN SYS nnn (R93): a no-op. -/
def execSys (s : State) : Result := .next s.advance

/-- 1NNN JP nnn (R95). -/
def execJp (nnn : BitVec 12) (s : State) : Result := .next (s.goto (zextAddr nnn))

/-- 2NNN CALL nnn (R96): the slot receives the CALL's own address. -/
def execCall (nnn : BitVec 12) (s : State) : Result :=
  if s.sp.val = 16 then .next (s.raiseBy .stackOverflow (.call nnn))
  else .next ((s.push s.pc).goto (zextAddr nnn))

/-- BNNN JP V0, nnn (R97): the sum is not masked to twelve bits. -/
def execJpV0 (nnn : BitVec 12) (s : State) : Result := .next (s.goto (zextAddr nnn + zextByte (s.reg 0)))

/-- 3XKK SE Vx, kk (R98). -/
def execSeImm (x : Reg) (kk : Byte) (s : State) : Result := .next (s.skipIf (s.reg x == kk))

/-- 4XKK SNE Vx, kk (R99). -/
def execSneImm (x : Reg) (kk : Byte) (s : State) : Result := .next (s.skipIf (s.reg x != kk))

/-- 5XY0 SE Vx, Vy (R100). -/
def execSeReg (x y : Reg) (s : State) : Result := .next (s.skipIf (s.reg x == s.reg y))

/-- 9XY0 SNE Vx, Vy (R101). -/
def execSneReg (x y : Reg) (s : State) : Result := .next (s.skipIf (s.reg x != s.reg y))

end Sys2Proof.Machine
end

