-- ==== Sys2Proof/Machine/Draw.lean ====
section
/-! DEFINITION. DXYN DRW (44_draw.md rules R170, R171). -/

namespace Sys2Proof.Machine

/-- The framebuffer DXYN leaves: the `n` bytes at `I` drawn at (Vx, Vy) (R170, R172). -/
def State.drawn (s : State) (x y : Reg) (n : BitVec 4) : Frame :=
  Frame.draw (s.reg x).toNat (s.reg y).toNat s.fb (s.readBytes s.i.toNat n.toNat)

/-- DXYN DRW Vx, Vy, n (R170, R171). -/
def execDrw (x y : Reg) (n : BitVec 4) (s : State) : Result :=
  if s.i.toNat + n.toNat > 4096 then .next (s.raiseBy .outOfBoundsRead (.drw x y n))
  else .next ((s.setFrame (s.drawn x y n)).setCollision (Frame.erasedSome s.fb (s.drawn x y n))).advance

end Sys2Proof.Machine
end

