-- ==== Sys2Proof/Machine/Index.lean ====
section
/-! DEFINITION. The address register and the memory instructions (42_index_memory.md rules R130 to R136). Each checks its
whole range in unbounded arithmetic before any access (20_memory.md rule R52). -/

namespace Sys2Proof.Machine

/-- ANNN LD I, nnn (R130). -/
def execLdI (nnn : BitVec 12) (s : State) : Result := .next (s.setI (zextAddr nnn)).advance

/-- FX1E ADD I, Vx (R131): wraps at 16 bits, no flag. -/
def execAddI (x : Reg) (s : State) : Result := .next (s.setI (s.i + zextByte (s.reg x))).advance

/-- FX29 LD F, Vx (R132): Vx is not masked to its low nibble. -/
def execLdF (x : Reg) (s : State) : Result :=
  .next (s.setI (BitVec.ofNat 16 (s.cfg.fontBase + 5 * (s.reg x).toNat))).advance

/-- The decimal digits of a byte: hundreds, tens, ones (R124, R133). -/
def decimalDigits (b : Byte) : List Byte :=
  [BitVec.ofNat 8 (b.toNat / 100), BitVec.ofNat 8 (b.toNat / 10 % 10), BitVec.ofNat 8 (b.toNat % 10)]

/-- FX33 LD B, Vx (R133). -/
def execLdB (x : Reg) (s : State) : Result :=
  if s.i.toNat + 2 ≥ 4096 then .next (s.raiseBy .outOfBoundsWrite (.ldB x))
  else .next (s.storeBytes s.i.toNat (decimalDigits (s.reg x))).advance

/-- FX55 LD [I], Vx (R134, R136). -/
def execLdMemVx (x : Reg) (s : State) : Result :=
  if s.i.toNat + x.val ≥ 4096 then .next (s.raiseBy .outOfBoundsWrite (.ldMemVx x))
  else .next ((s.storeBytes s.i.toNat (s.regsUpTo x)).advanceI x).advance

/-- FX65 LD Vx, [I] (R135, R136). -/
def execLdVxMem (x : Reg) (s : State) : Result :=
  if s.i.toNat + x.val ≥ 4096 then .next (s.raiseBy .outOfBoundsRead (.ldVxMem x))
  else .next ((s.setRegsUpTo x (fun k => s.readByte (s.i.toNat + k))).advanceI x).advance

end Sys2Proof.Machine
end

