-- ==== Sys2Proof/Machine/TimersKeys.lean ====
section
/-! DEFINITION. The timer and key instructions (43_timers_keys.md rules R150 to R157). -/

namespace Sys2Proof.Machine

/-- FX07 LD Vx, DT (R150): one atomic load of DT. -/
def execLdVxDt (x : Reg) (s : State) : Result := .next (s.setReg x s.dt).advance

/-- FX15 LD DT, Vx (R151). -/
def execLdDtVx (x : Reg) (s : State) : Result := .next (s.setDT (s.reg x)).advance

/-- FX18 LD ST, Vx (R152). -/
def execLdStVx (x : Reg) (s : State) : Result := .next (s.setST (s.reg x)).advance

/-- EX9E SKP Vx (R155). -/
def execSkp (x : Reg) (s : State) : Result := .next (s.skipIf (s.keyIs (s.reg x)))

/-- EXA1 SKNP Vx (R156). -/
def execSknp (x : Reg) (s : State) : Result := .next (s.skipIf (!s.keyIs (s.reg x)))

/-- FX0A LD Vx, K (R157): holds while KEY is none; the key is read, not consumed. -/
def execLdVxK (x : Reg) (s : State) : Result :=
  match s.key with
  | none => .next s.hold
  | some k => .next (s.setReg x (byteOfKey k)).advance

end Sys2Proof.Machine
end

