-- ==== Sys2Proof/Machine/Engine.lean ====
section
/-! DEFINITION. The engine's atomic step (40_control.md rule R90; 60_exceptions.md rules R182, R184). -/

namespace Sys2Proof.Machine

/-- The step of R90 from Idle or Waiting, its checks in R184's order: STOP, the fetch bound, decode, then the instruction. -/
def engineAttempt (s : State) : Result :=
  if s.stop then .next s.halt
  else
    match s.fetch with
    | none => .next (s.raise .outOfBoundsRead none)
    | some w =>
      match decode w with
      | none => .next (s.raise .unknownInstruction (some w))
      | some i => exec i s

/-- The engine's one action, enabled when ES is Idle or Waiting (R183); no step is taken from Faulted or Stopped. -/
def engineStep (s : State) : Result :=
  match s.es with
  | .idle => engineAttempt s.markStarted
  | .waiting => engineAttempt s.markStarted
  | .faulted => .fault .engineFaulted
  | .stopped => .fault .engineStopped

end Sys2Proof.Machine
end

