-- ==== Sys2Proof/Machine/Agents.lean ====
section
/-! DEFINITION. The timer agent and the host (43_timers_keys.md rules R153, R158, R159; 60_exceptions.md rules R183, R190;
70_reset_and_hazards.md rules R200 to R205), and the interleaving of the three agents' actions that the agenda names. -/

namespace Sys2Proof.Machine

/-- `dec_DT` is enabled: STOP = 0 and DT > 0, whatever ES is (R153). -/
def State.dtEnabled (s : State) : Bool := !s.stop && s.dt != 0

/-- `dec_ST` is enabled: STOP = 0 and ST > 0, whatever ES is (R153). -/
def State.stEnabled (s : State) : Bool := !s.stop && s.st != 0

/-- `dec_DT` (R153): one atomic read-modify-write of DT. -/
def decDT (s : State) : Result :=
  if s.dtEnabled then .next (s.setDT (s.dt - 1)) else .refused .timerNotEnabled

/-- `dec_ST` (R153): one atomic read-modify-write of ST. -/
def decST (s : State) : Result :=
  if s.stEnabled then .next (s.setST (s.st - 1)) else .refused .timerNotEnabled

/-- `set_key(k)` (R158, R190): KEY <- k, always allowed. -/
def hostSetKey (k : Option Key) (s : State) : Result := .next (s.setKey k)

/-- `set_stop()` (R159, R190): STOP <- 1, always allowed. -/
def hostSetStop (s : State) : Result := .next s.setStop

/-- `reset()` (R190, R200): every piece of the spec's state takes its reset value. The parameters, the actions still to come
and the random source are no part of it (R33). -/
def hostReset (s : State) : Result :=
  .next { State.resetWith s.cfg with agenda := s.agenda, rndIn := s.rndIn, rndUsed := s.rndUsed }

/-- What a load reports (R204, R205). -/
inductive LoadStatus where
  | ok
  | programTooLarge
  deriving DecidableEq, Repr

/-- The load's status: refused for an image longer than `MEM_SIZE - PROG_START` = 3584 bytes (R205). -/
def loadStatus (image : List Byte) : LoadStatus :=
  if image.length ≤ 3584 then .ok else .programTooLarge

/-- The load's effect (R204, R205): the image copied from `PROG_START` up, or, where it is refused, nothing. -/
def loadImage (image : List Byte) (s : State) : State :=
  match loadStatus image with
  | .ok => s.storeBytes 0x200 image
  | .programTooLarge => s

/-- `load(image)` (R190, R203): allowed after reset, before the first step. -/
def hostLoad (image : List Byte) (s : State) : Result :=
  if s.started then .refused .loadAfterFirstStep else .next (loadImage image s)

/-- One atomic action of an agent (R183). -/
def perform (a : Action) (s : State) : Result :=
  match a with
  | .engineStep => engineStep s
  | .decDT => decDT s
  | .decST => decST s
  | .setKey k => hostSetKey k s
  | .setStop => hostSetStop s
  | .reset => hostReset s
  | .load image => hostLoad image s

/-- The next action of the interleaving (R183): the agenda's first, or, past its end, the engine's step. -/
def nextAction (s : State) : Result :=
  match s.agenda with
  | [] => engineStep s
  | a :: rest => perform a (s.setAgenda rest)

/-- `framebuffer()` (R187, R190): the snapshot the host reads between any two actions. -/
def State.framebuffer (s : State) : Frame := s.fb

/-- What `status()` shows the host (R190). -/
structure Status where
  es : EngineState
  fr : Option FaultRecord
  dt : Byte
  st : Byte
  deriving DecidableEq, Repr

/-- `status()` (R190): ES, FR, DT, ST. -/
def State.status (s : State) : Status := ⟨s.es, s.fr, s.dt, s.st⟩

/-- An engine that takes no step is made Idle, with FR empty. -/
def State.revive (s : State) : State :=
  match s.es with
  | .idle => s
  | .waiting => s
  | .faulted => { s with es := .idle, fr := none }
  | .stopped => { s with es := .idle, fr := none }

/-- A pc that cannot be fetched from is moved to `PROG_START`. -/
def State.atFetchable (s : State) : State :=
  if s.pc.toNat + 1 ≥ 4096 then { s with pc := BitVec.ofNat 16 0x200 } else s

/-- STOP and the agenda cleared, so that the engine's step comes next and runs an instruction. -/
def State.unhindered (s : State) : State := { s with stop := false, agenda := [] }

/-- The word placed where the engine's very next step fetches it. -/
def placeNextWord (s : State) (w : Word) : State :=
  s.revive.atFetchable.unhindered.placeWord s.revive.atFetchable.pc.toNat w

end Sys2Proof.Machine
end

