-- ==== Sys2Proof/Machine/Step.lean ====
section
/-! DEFINITION. One step of the machine: the next atomic action of its three agents (60_exceptions.md rule R183). -/

namespace Sys2Proof.Machine

/-- One step. With nothing on the agenda it is the engine's step of R90. -/
def step (s : State) : Host.Outcome State Fault Refusal := nextAction s

/-- `s` with the opcode table's word stored where `step` fetches its next instruction. -/
def State.withFetchWord (s : State) (nbits w : Nat) : State :=
  placeNextWord s (BitVec.ofNat 16 (w % 2 ^ nbits))

end Sys2Proof.Machine
end

