-- ==== Sys2Proof/Safety.lean ====
section
/-! DEFINITION. The terms claims use: what an instruction may change, how it ends, what a fault leaves, the invariant every
step keeps, the causes of faults, and the end of a run. -/

namespace Sys2Proof.Machine

/-- The parts of the state an action may change beside `pc` and ES, which a claim states on its own. -/
structure Effects where
  regs   : List Reg := []
  i      : Bool := false
  stack  : Bool := false
  dt     : Bool := false
  st     : Bool := false
  fb     : Bool := false
  random : Bool := false
  /-- the first of the bytes stored to, and how many there are -/
  memAt  : Nat := 0
  memLen : Nat := 0

/-- From `s` to `t` nothing changed but what `e` names, and `pc` and ES. KEY, STOP, FR, the parameters and the model's own
agenda are never changed under it. -/
structure ChangesOnly (e : Effects) (s t : State) : Prop where
  regs    : ∀ r, r ∉ e.regs → t.reg r = s.reg r
  i       : e.i = false → t.i = s.i
  sp      : e.stack = false → t.sp = s.sp
  slots   : e.stack = false → ∀ k, t.slot k = s.slot k
  dt      : e.dt = false → t.dt = s.dt
  st      : e.st = false → t.st = s.st
  fb      : e.fb = false → t.fb = s.fb
  rndIn   : e.random = false → t.rndIn = s.rndIn
  rndUsed : e.random = false → t.rndUsed = s.rndUsed
  mem     : ∀ a, ¬ (e.memAt ≤ a ∧ a < e.memAt + e.memLen) → t.readByte a = s.readByte a
  key     : t.key = s.key
  stop    : t.stop = s.stop
  fr      : t.fr = s.fr
  cfg     : t.cfg = s.cfg
  started : t.started = s.started
  agenda  : t.agenda = s.agenda

/-- The instruction retires with the pc at `p`, the engine Idle (R90). -/
def RetiresTo (p : Word) (t : State) : Prop := t.pc = p ∧ t.es = .idle

/-- Fault entry (R181, R182): ES = Faulted, FR = (f, pc, w), every other piece of state as before. -/
def FaultsWith (f : FaultCode) (w : Option Word) (s t : State) : Prop :=
  t = { s with es := .faulted, fr := some ⟨f, s.pc, w⟩ }

/-- The result `r` and the flag `f` of a flag-writing instruction with destination `x` (R110, R111). -/
def FlagResult (x : Reg) (r f : Nat) (s t : State) : Prop :=
  (x ≠ VF → (t.reg x).toNat = r ∧ (t.reg VF).toNat = f) ∧
  (x = VF → s.cfg.vfDestOrder = .flagLast → (t.reg VF).toNat = f) ∧
  (x = VF → s.cfg.vfDestOrder = .resultLast → (t.reg VF).toNat = r)

/-- What FX55 and FX65 leave in I (R136). -/
def BlockAdvances (x : Reg) (s t : State) : Prop :=
  (s.cfg.blockIMode = .unchanged → t.i = s.i) ∧
  (s.cfg.blockIMode = .advance → t.i.toNat = (s.i.toNat + x.val + 1) % 65536)

/-- The registers V0 to Vx. -/
def regsTo (x : Reg) : List Reg := (List.finRange 16).filter (· ≤ x)

/-- The engine may step (R183). -/
def State.Live (s : State) : Prop := s.es = .idle ∨ s.es = .waiting

/-- The instruction at pc, where one can be fetched and decoded. -/
def State.current (s : State) : Option Instr := s.fetch.bind decode

/-- The causes of the engine's faults, row by row of R180's table. -/
def FaultCause (s : State) : FaultCode → Prop
  | .outOfBoundsRead =>
    s.pc.toNat + 1 ≥ 4096 ∨ (∃ x y n, s.current = some (.drw x y n) ∧ s.i.toNat + n.toNat > 4096) ∨
      (∃ x, s.current = some (.ldVxMem x) ∧ s.i.toNat + x.val ≥ 4096)
  | .outOfBoundsWrite =>
    (∃ x, s.current = some (.ldB x) ∧ s.i.toNat + 2 ≥ 4096) ∨
      (∃ x, s.current = some (.ldMemVx x) ∧ s.i.toNat + x.val ≥ 4096)
  | .stackOverflow => ∃ nnn, s.current = some (.call nnn) ∧ s.sp.val = 16
  | .stackUnderflow => s.current = some .ret ∧ s.sp.val = 0
  | .unknownInstruction => ∃ w, s.fetch = some w ∧ decode w = none
  | .nullInstruction => s.current = some .null ∧ s.cfg.zeroWordPolicy = .fatal

/-- The sprite of `DXYN` covers pixel (c, r) with a set bit: `c` lies fewer than 8 columns right of Vx and `r` fewer than `n`
rows below Vy on the surface that wraps both axes, and the bit there is 1 (R170, R172). -/
def SpriteSets (s : State) (x y : Reg) (n : BitVec 4) (c : Fin 64) (r : Fin 32) : Bool :=
  let dc := (c.val + 64 - (s.reg x).toNat % 64) % 64
  let dr := (r.val + 32 - (s.reg y).toNat % 32) % 32
  decide (dc < 8) && decide (dr < n.toNat) && (s.readByte (s.i.toNat + dr)).getLsbD (7 - dc)

/-- Decimal digit `k` of a byte: 0 the hundreds, 1 the tens, 2 the ones (R133). -/
def DigitOf (b : Byte) (k : Fin 3) : Nat :=
  match k with
  | 0 => b.toNat / 100
  | 1 => b.toNat / 10 % 10
  | 2 => b.toNat % 10

/-- The registers an instruction names as its destination. -/
def destinations : Instr → List Reg
  | .cls => []
  | .ret => []
  | .null => []
  | .sys _ => []
  | .jp _ => []
  | .call _ => []
  | .seImm _ _ => []
  | .sneImm _ _ => []
  | .seReg _ _ => []
  | .ldImm x _ => [x]
  | .addImm x _ => [x]
  | .ldReg x _ => [x]
  | .orReg x _ => [x]
  | .andReg x _ => [x]
  | .xorReg x _ => [x]
  | .addReg x _ => [x]
  | .subReg x _ => [x]
  | .shr x _ => [x]
  | .subnReg x _ => [x]
  | .shl x _ => [x]
  | .sneReg _ _ => []
  | .ldI _ => []
  | .jpV0 _ => []
  | .rnd x _ => [x]
  | .drw _ _ _ => []
  | .skp _ => []
  | .sknp _ => []
  | .ldVxDt x => [x]
  | .ldVxK x => [x]
  | .ldDtVx _ => []
  | .ldStVx _ => []
  | .addI _ => []
  | .ldF _ => []
  | .ldB _ => []
  | .ldMemVx _ => []
  | .ldVxMem x => regsTo x

/-- The instructions that write VF as a side effect (R21): 8XY4, 8XY5, 8XY6, 8XY7, 8XYE, and DXYN under Collision. -/
def WritesFlag (c : Config) (j : Instr) : Prop :=
  (∃ x y, j = .addReg x y) ∨ (∃ x y, j = .subReg x y) ∨ (∃ x y, j = .shr x y) ∨ (∃ x y, j = .subnReg x y) ∨
    (∃ x y, j = .shl x y) ∨ (c.drawVf = .collision ∧ ∃ x y n, j = .drw x y n)

/-- The instructions that write I (R23): ANNN, FX1E, FX29, and under Advance FX55 and FX65. -/
def WritesI (c : Config) (j : Instr) : Prop :=
  (∃ nnn, j = .ldI nnn) ∨ (∃ x, j = .addI x) ∨ (∃ x, j = .ldF x) ∨
    (c.blockIMode = .advance ∧ ((∃ x, j = .ldMemVx x) ∨ (∃ x, j = .ldVxMem x)))

/-- Instructions run one after the other. -/
def execAll : List Instr → State → Result
  | [], s => .next s
  | j :: js, s =>
    match exec j s with
    | .next t => execAll js t
    | .fault r => .fault r
    | .refused r => .refused r

/-- What holds of the machine at every moment. -/
structure Inv (s : State) : Prop where
  /-- memory is in canonical form -/
  mem     : s.memWf
  /-- no target exceeds 0x10FE (R24) -/
  pc      : s.pc.toNat ≤ 0x10FE
  /-- every slot holds an address that an instruction was fetched from, or its reset value (R26) -/
  slots   : ∀ k, (s.slot k).toNat ≤ 0xFFE
  /-- FR is empty before any fault and filled once the engine is Faulted (R31, R182) -/
  record  : s.es = .faulted ↔ s.fr ≠ none
  /-- only a seen STOP leads to Stopped, and STOP stays set until reset (R29, R30) -/
  stopped : s.es = .stopped → s.stop = true

/-- A run of the three agents: at every moment one of them takes one atomic action (R183). -/
structure Run where
  states : Nat → State
  acts   : Nat → Action
  takes  : ∀ n, perform (acts n) (states n) = .next (states (n + 1))

/-- Weak fairness of the timer agent (R154): a timer action that stays enabled is eventually taken. -/
def Run.WeaklyFair (ρ : Run) : Prop :=
  (∀ n, (∀ m, n ≤ m → (ρ.states m).dtEnabled = true) → ∃ m, n ≤ m ∧ ρ.acts m = .decDT) ∧
  (∀ n, (∀ m, n ≤ m → (ρ.states m).stEnabled = true) → ∃ m, n ≤ m ∧ ρ.acts m = .decST)

/-- A run has ended (R196). -/
def State.Ended (s : State) : Prop := s.es = .faulted ∨ s.es = .stopped

/-- A clean end (R196): Stopped with FR empty. -/
def State.CleanEnd (s : State) : Prop := s.es = .stopped ∧ s.fr = none

end Sys2Proof.Machine
end

