-- ==== Sys2Proof/Certificates/Slice0/Obligations.lean ====
section
/-! DEFINITION. The statements for the provers, from the spec's numbered rules. An instruction's statement names the word that
selects it, its next state, and by `ChangesOnly` all it leaves alone. -/

open Sys2Proof Sys2Proof.Machine

/-! ### The decoder -/

/-- Words written out bit by bit from R74 and 95_test_vectors.md section 2.1, one or more of every family. A sanity statement. -/
def Obligations.WrittenWordsDecode : Prop :=
  decode 0b0000000011100000#16 = some .cls ∧
  decode 0b0000000011101110#16 = some .ret ∧
  decode 0b0000000000000000#16 = some .null ∧
  decode 0b0000000011100001#16 = some (.sys 0x0E1) ∧
  decode 0b0001101010111100#16 = some (.jp 0xABC) ∧
  decode 0b0011101001011100#16 = some (.seImm 0xA 0x5C) ∧
  decode 0b0101101010110000#16 = some (.seReg 0xA 0xB) ∧
  decode 0b0101101010110001#16 = none ∧
  decode 0b1000101010110110#16 = some (.shr 0xA 0xB) ∧
  decode 0b1000101010111000#16 = none ∧
  decode 0b1101000100101111#16 = some (.drw 1 2 15) ∧
  decode 0b1110010110011110#16 = some (.skp 5) ∧
  decode 0b1110010110011111#16 = none ∧
  decode 0b1111010100110011#16 = some (.ldB 5) ∧
  decode 0b1111010101100101#16 = some (.ldVxMem 5)

/-- Decode and encode agree: every well-formed instruction, with every operand at every value, is read back from its word
(R71, R74). -/
def Obligations.DecodeOfEncodeIsIdentity : Prop :=
  ∀ i : Instr, i.wf = true → decode (encode i) = some i

/-- The other direction: an instruction the decoder reads is well-formed and its word is the one that was read (R71, R74). -/
def Obligations.EncodeOfDecodeIsIdentity : Prop :=
  ∀ (w : Word) (i : Instr), decode w = some i → i.wf = true ∧ encode i = w

/-- R78: the illegal words are exactly the five classes of its table. The spec marks the rule as derived from R74 and R76. -/
def Obligations.IllegalWordsAreExactly : Prop :=
  ∀ w : Word,
    decode w = none ↔
      (w.toNat / 4096 = 5 ∧ w.toNat % 16 ≠ 0) ∨
      (w.toNat / 4096 = 8 ∧ w.toNat % 16 ∈ [0x8, 0x9, 0xA, 0xB, 0xC, 0xD, 0xF]) ∨
      (w.toNat / 4096 = 9 ∧ w.toNat % 16 ≠ 0) ∨
      (w.toNat / 4096 = 14 ∧ w.toNat % 256 ∉ [0x9E, 0xA1]) ∨
      (w.toNat / 4096 = 15 ∧ w.toNat % 256 ∉ [0x07, 0x0A, 0x15, 0x18, 0x1E, 0x29, 0x33, 0x55, 0x65])

/-- R75: only 0x00E0, 0x00EE and 0x0000 match more than one entry of the table. -/
def Obligations.OnlyThreeWordsMatchTwoEntries : Prop :=
  ∀ w : Word,
    (decodeTable.filter (·.hits w)).length > 1 ↔ w = 0x00E0 ∨ w = 0x00EE ∨ w = 0x0000

/-! ### The step -/

/-- R53: the fetched word is the byte at pc as its high byte and the byte at pc + 1 as its low byte. R52, as decision D11 of the
spec reads it (notes/assumptions/13.md): no fetch reaches address 4096. -/
def Obligations.FetchIsBigEndian : Prop :=
  ∀ s : State,
    (s.pc.toNat + 1 < 4096 → ∃ w, s.fetch = some w ∧
      w.toNat = (s.readByte s.pc.toNat).toNat * 256 + (s.readByte (s.pc.toNat + 1)).toNat) ∧
    (s.pc.toNat + 1 ≥ 4096 → s.fetch = none)

/-- The engine's step, from Idle or Waiting with STOP clear, is `exec` of the instruction at pc, after the model's own mark that
a step has been taken. With an empty agenda, or the engine first on it, that is the machine's step. -/
def Obligations.StepRunsDecodedInstruction : Prop :=
  ∀ (s : State) (w : Word) (i : Instr),
    s.Live → s.stop = false → s.fetch = some w → decode w = some i →
      engineStep s = exec i s.markStarted ∧
      (s.agenda = [] → step s = exec i s.markStarted) ∧
      (∀ rest, s.agenda = .engineStep :: rest → step s = exec i (s.setAgenda rest).markStarted)

/-- R183: a step is the next atomic action of the interleaving the agenda names (the model's own field, notes/assumptions/4.md),
the engine's own past its end. R182, R196: no engine step is taken from Faulted or Stopped, and a run has ended exactly when
no engine step can be taken. -/
def Obligations.StepIsOneAtomicAction : Prop :=
  ∀ s : State,
    (s.agenda = [] → step s = engineStep s) ∧
    (∀ a rest, s.agenda = a :: rest → step s = perform a (s.setAgenda rest)) ∧
    (s.es = .faulted → engineStep s = .fault .engineFaulted) ∧
    (s.es = .stopped → engineStep s = .fault .engineStopped) ∧
    (s.Ended ↔ ¬ ∃ t, engineStep s = .next t)

/-- The word that `withFetchWord` places is the word the next engine step fetches (the model's own operation,
notes/assumptions/6.md). -/
def Obligations.PlacedWordIsFetchedNext : Prop :=
  ∀ (s : State) (w : Nat),
    s.memWf →
      (s.withFetchWord 16 w).fetch = some (BitVec.ofNat 16 w) ∧ (s.withFetchWord 16 w).Live ∧
      (s.withFetchWord 16 w).stop = false ∧ (s.withFetchWord 16 w).agenda = []

/-- R90, R159, R184: STOP is checked first; the step then does nothing but set ES to Stopped. R196: in a state that meets the
invariant this is a clean end. -/
def Obligations.StopIsSeenBeforeTheFetch : Prop :=
  ∀ s : State, s.Live → s.stop = true →
    ∃ t, engineStep s = .next t ∧ t = { s with es := .stopped, started := true } ∧ (Inv s → t.CleanEnd)

/-- R52, R77, R90: a pc that cannot be fetched from faults with no word recorded, and a word that matches no entry raises
UnknownInstruction; each such step completes by taking the fault. -/
def Obligations.FetchAndDecodeFaultsAreTaken : Prop :=
  ∀ s : State, s.Live → s.stop = false →
    (s.pc.toNat + 1 ≥ 4096 →
      ∃ t, engineStep s = .next t ∧ FaultsWith .outOfBoundsRead none s.markStarted t) ∧
    (∀ w, s.fetch = some w → decode w = none →
      ∃ t, engineStep s = .next t ∧ FaultsWith .unknownInstruction (some w) s.markStarted t)

/-- R182, R181: a step that faults writes nothing but ES and FR, and FR records the faulting instruction's own pc and the word
fetched, absent when none was (the record is the spec's decision D35). From Faulted no engine step is taken (the outcome is the
model's: notes/assumptions/8.md). R182, R186, R200: from every state, no action of any agent but reset leaves Faulted or Stopped,
changes FR there, or clears STOP or FR (the spec's decisions D14, D17, D22: notes/assumptions/13.md). -/
def Obligations.FaultedStepWritesNothing : Prop :=
  (∀ s t : State, engineStep s = .next t → t.es = .faulted → ∃ f, FaultsWith f s.fetch s.markStarted t) ∧
  (∀ t : State, t.es = .faulted → engineStep t = .fault .engineFaulted) ∧
  ∀ (t u : State) (a : Action), a ≠ .reset → perform a t = .next u →
    (t.es = .faulted → u.es = .faulted ∧ u.fr = t.fr) ∧
    (t.es = .stopped → u.es = .stopped ∧ u.fr = t.fr) ∧
    (t.stop = true → u.stop = true) ∧
    (t.fr ≠ none → u.fr ≠ none)

/-- R180: a step takes a fault exactly where its row of the table names the cause, and takes no other. The numbers of the codes
are the spec's decision D15, the bounds of the ranges its decision D11 (notes/assumptions/13.md). -/
def Obligations.FaultsHaveExactlyTheirCauses : Prop :=
  [FaultCode.outOfBoundsRead, .outOfBoundsWrite, .stackOverflow, .stackUnderflow, .unknownInstruction, .nullInstruction].map
    FaultCode.number = [1, 2, 3, 4, 5, 6] ∧
  ∀ s t : State, s.stop = false → engineStep s = .next t →
    ∀ f, FaultCause s f ↔ FaultsWith f s.fetch s.markStarted t

/-- R30: the engine steps only from Idle and Waiting; it goes to Stopped exactly when it sees STOP, and to Waiting exactly when
FX0A finds no key. -/
def Obligations.EngineStateTransitions : Prop :=
  ∀ s t : State, engineStep s = .next t →
    s.Live ∧ (t.es = .stopped ↔ s.stop = true) ∧
    (t.es = .waiting ↔ s.stop = false ∧ s.key = none ∧ ∃ x, s.current = some (.ldVxK x))

/-! ### Invariants -/

/-- Every step of the machine, whichever agent takes it, keeps the invariant: memory in canonical form, pc at most 0x10FE
(R24), slots at most 0xFFE (R26), FR filled exactly when Faulted (R31), Stopped only under STOP (R29, R30). -/
def Obligations.StepKeepsInvariant : Prop :=
  ∀ s t : State, Inv s → step s = .next t → Inv t

/-- The invariant holds at reset, under any parameters. -/
def Obligations.ResetHasInvariant : Prop :=
  ∀ c : Config, Inv (State.resetWith c)

/-- Every step of the machine leaves the parameters as they are: they are fixed for a run (R33). -/
def Obligations.ParametersAreFixedForARun : Prop :=
  ∀ s t : State, step s = .next t → t.cfg = s.cfg

/-! ### Which instructions write what -/

/-- R21 (and R20): a register changes only if the instruction names it as its destination, or it is VF and the instruction
writes the flag. -/
def Obligations.RegistersChangeOnlyAsDestinations : Prop :=
  ∀ (j : Instr) (s t : State) (r : Reg), exec j s = .next t → r ∉ destinations j → (r = VF → ¬ WritesFlag s.cfg j) →
    t.reg r = s.reg r

/-- R23: I is written by ANNN, FX1E, FX29 and, under Advance, FX55 and FX65, and by no other instruction. -/
def Obligations.AddressRegisterWriters : Prop :=
  ∀ (j : Instr) (s t : State), exec j s = .next t → ¬ WritesI s.cfg j → t.i = s.i

/-- R25, R26: SP and the slots are written by CALL and RET alone. -/
def Obligations.StackWriters : Prop :=
  ∀ (j : Instr) (s t : State), exec j s = .next t → j ≠ .ret → (∀ nnn, j ≠ .call nnn) →
    t.sp = s.sp ∧ ∀ k, t.slot k = s.slot k

/-- R32: the framebuffer is written by 00E0 and DXYN alone. -/
def Obligations.FramebufferWriters : Prop :=
  ∀ (j : Instr) (s t : State), exec j s = .next t → j ≠ .cls → (∀ x y n, j ≠ .drw x y n) → t.fb = s.fb

/-- R27: of the instructions, FX15 alone writes DT and FX18 alone writes ST. -/
def Obligations.TimerWriters : Prop :=
  ∀ (j : Instr) (s t : State), exec j s = .next t →
    ((∀ x, j ≠ .ldDtVx x) → t.dt = s.dt) ∧ ((∀ x, j ≠ .ldStVx x) → t.st = s.st)

/-- R50: of the instructions, FX33 and FX55 alone write memory; every byte reads as before after any other. -/
def Obligations.MemoryWriters : Prop :=
  ∀ (j : Instr) (s t : State), exec j s = .next t → (∀ x, j ≠ .ldB x) → (∀ x, j ≠ .ldMemVx x) →
    ∀ a, t.readByte a = s.readByte a

/-- R28, R29, R34: the engine never writes KEY or STOP. -/
def Obligations.EngineNeverWritesKeyOrStop : Prop :=
  ∀ s t : State, engineStep s = .next t → t.key = s.key ∧ t.stop = s.stop

/-! ### Control -/

/-- R91. -/
def Obligations.ClsClearsTheFramebuffer : Prop :=
  decode 0x00E0 = some .cls ∧
  ∀ s : State, ∃ t, exec .cls s = .next t ∧ RetiresTo (s.pc + 2) t ∧ (∀ c r, t.fb.pixel c r = false) ∧
    ChangesOnly { fb := true } s t

/-- R92, under both policies. -/
def Obligations.NullFollowsTheZeroWordPolicy : Prop :=
  decode 0x0000 = some .null ∧
  ∀ s : State,
    (s.cfg.zeroWordPolicy = .fatal → ∃ t, exec .null s = .next t ∧ FaultsWith .nullInstruction (some 0x0000) s t) ∧
    (s.cfg.zeroWordPolicy = .nop → ∃ t, exec .null s = .next t ∧ RetiresTo (s.pc + 2) t ∧ ChangesOnly {} s t)

/-- R93: every word 0x0001 to 0x0FFF but 0x00E0 and 0x00EE is a no-op. -/
def Obligations.SysIsANoOp : Prop :=
  ∀ nnn : BitVec 12,
    (nnn ≠ 0x000 → nnn ≠ 0x0E0 → nnn ≠ 0x0EE → decode (wordNnn 0x0 nnn) = some (.sys nnn)) ∧
    ∀ s : State, ∃ t, exec (.sys nnn) s = .next t ∧ RetiresTo (s.pc + 2) t ∧ ChangesOnly {} s t

/-- R94. -/
def Obligations.RetReturnsAfterTheCall : Prop :=
  decode 0x00EE = some .ret ∧
  ∀ s : State,
    (s.sp.val = 0 → ∃ t, exec .ret s = .next t ∧ FaultsWith .stackUnderflow (some 0x00EE) s t) ∧
    (s.sp.val ≠ 0 → ∃ t, exec .ret s = .next t ∧ RetiresTo (s.slot s.sp.val + 2) t ∧ t.sp.val + 1 = s.sp.val ∧
      (∀ k, t.slot k = s.slot k) ∧ ChangesOnly { stack := true } s t)

/-- R95, R97: the jumps; the indexed sum is not masked to twelve bits. -/
def Obligations.JumpsSetThePc : Prop :=
  ∀ nnn : BitVec 12,
    decode (wordNnn 0x1 nnn) = some (.jp nnn) ∧ decode (wordNnn 0xB nnn) = some (.jpV0 nnn) ∧
    ∀ s : State,
      (∃ t, exec (.jp nnn) s = .next t ∧ t.pc.toNat = nnn.toNat ∧ t.es = .idle ∧ ChangesOnly {} s t) ∧
      (∃ t, exec (.jpV0 nnn) s = .next t ∧ t.pc.toNat = nnn.toNat + (s.reg 0).toNat ∧ t.es = .idle ∧ ChangesOnly {} s t)

/-- R96: the slot S[SP + 1] receives the CALL's own address; a full stack faults. -/
def Obligations.CallPushesItsOwnAddress : Prop :=
  ∀ nnn : BitVec 12,
    decode (wordNnn 0x2 nnn) = some (.call nnn) ∧
    ∀ s : State,
      (s.sp.val = 16 → ∃ t, exec (.call nnn) s = .next t ∧ FaultsWith .stackOverflow (some (wordNnn 0x2 nnn)) s t) ∧
      (s.sp.val ≠ 16 → ∃ t, exec (.call nnn) s = .next t ∧ t.pc.toNat = nnn.toNat ∧ t.es = .idle ∧
        t.sp.val = s.sp.val + 1 ∧ t.slot (s.sp.val + 1) = s.pc ∧
        (∀ k, 1 ≤ k → k ≠ s.sp.val + 1 → t.slot k = s.slot k) ∧ ChangesOnly { stack := true } s t)

/-- R94, R96: wherever the subroutine ends, RET resumes at the instruction after the CALL, with the stack as deep as before. -/
def Obligations.ReturnUndoesCall : Prop :=
  ∀ (s : State) (nnn : BitVec 12), s.sp.val ≠ 16 →
    ∃ t, exec (.call nnn) s = .next t ∧
      ∀ u : State, u.sp = t.sp → u.stack = t.stack →
        ∃ v, exec .ret u = .next v ∧ v.pc = s.pc + 2 ∧ v.sp = s.sp

/-- R96: sixteen nested calls succeed and the seventeenth faults. -/
def Obligations.SixteenNestedCallsSucceedSeventeenthFaults : Prop :=
  ∀ (s : State) (targets : List (BitVec 12)) (nnn : BitVec 12), s.sp.val = 0 → targets.length = 16 →
    ∃ t, execAll (targets.map .call) s = .next t ∧ t.sp.val = 16 ∧ t.es = .idle ∧ t.fr = s.fr ∧
      ∃ u, exec (.call nnn) t = .next u ∧ FaultsWith .stackOverflow (some (wordNnn 0x2 nnn)) t u

/-- R98, R99. -/
def Obligations.SkipsOnAnImmediate : Prop :=
  ∀ (x : Reg) (kk : Byte),
    decode (wordXkk 0x3 x kk) = some (.seImm x kk) ∧ decode (wordXkk 0x4 x kk) = some (.sneImm x kk) ∧
    ∀ s : State,
      (∃ t, exec (.seImm x kk) s = .next t ∧ RetiresTo (if s.reg x = kk then s.pc + 4 else s.pc + 2) t ∧
        ChangesOnly {} s t) ∧
      (∃ t, exec (.sneImm x kk) s = .next t ∧ RetiresTo (if s.reg x = kk then s.pc + 2 else s.pc + 4) t ∧
        ChangesOnly {} s t)

/-- R100, R101. -/
def Obligations.SkipsOnTwoRegisters : Prop :=
  ∀ x y : Reg,
    decode (wordXyn 0x5 x y 0x0) = some (.seReg x y) ∧ decode (wordXyn 0x9 x y 0x0) = some (.sneReg x y) ∧
    ∀ s : State,
      (∃ t, exec (.seReg x y) s = .next t ∧ RetiresTo (if s.reg x = s.reg y then s.pc + 4 else s.pc + 2) t ∧
        ChangesOnly {} s t) ∧
      (∃ t, exec (.sneReg x y) s = .next t ∧ RetiresTo (if s.reg x = s.reg y then s.pc + 2 else s.pc + 4) t ∧
        ChangesOnly {} s t)

/-! ### Loads, ALU, random -/

/-- R112, R113, R114. -/
def Obligations.LoadsAndImmediateAdd : Prop :=
  ∀ (x y : Reg) (kk : Byte),
    decode (wordXkk 0x6 x kk) = some (.ldImm x kk) ∧ decode (wordXkk 0x7 x kk) = some (.addImm x kk) ∧
    decode (wordXyn 0x8 x y 0x0) = some (.ldReg x y) ∧
    ∀ s : State,
      (∃ t, exec (.ldImm x kk) s = .next t ∧ RetiresTo (s.pc + 2) t ∧ t.reg x = kk ∧ ChangesOnly { regs := [x] } s t) ∧
      (∃ t, exec (.addImm x kk) s = .next t ∧ RetiresTo (s.pc + 2) t ∧
        (t.reg x).toNat = ((s.reg x).toNat + kk.toNat) % 256 ∧ ChangesOnly { regs := [x] } s t) ∧
      (∃ t, exec (.ldReg x y) s = .next t ∧ RetiresTo (s.pc + 2) t ∧ t.reg x = s.reg y ∧
        ChangesOnly { regs := [x] } s t)

/-- R115, R116, R117, bit by bit; VF is not cleared. -/
def Obligations.BitwiseOperations : Prop :=
  ∀ x y : Reg,
    decode (wordXyn 0x8 x y 0x1) = some (.orReg x y) ∧ decode (wordXyn 0x8 x y 0x2) = some (.andReg x y) ∧
    decode (wordXyn 0x8 x y 0x3) = some (.xorReg x y) ∧
    ∀ s : State,
      (∃ t, exec (.orReg x y) s = .next t ∧ RetiresTo (s.pc + 2) t ∧
        (∀ b, (t.reg x).getLsbD b = ((s.reg x).getLsbD b || (s.reg y).getLsbD b)) ∧ ChangesOnly { regs := [x] } s t) ∧
      (∃ t, exec (.andReg x y) s = .next t ∧ RetiresTo (s.pc + 2) t ∧
        (∀ b, (t.reg x).getLsbD b = ((s.reg x).getLsbD b && (s.reg y).getLsbD b)) ∧ ChangesOnly { regs := [x] } s t) ∧
      (∃ t, exec (.xorReg x y) s = .next t ∧ RetiresTo (s.pc + 2) t ∧
        (∀ b, (t.reg x).getLsbD b = ((s.reg x).getLsbD b ^^ (s.reg y).getLsbD b)) ∧ ChangesOnly { regs := [x] } s t)

/-- R118, with R111 for x = 15. -/
def Obligations.AddSetsCarry : Prop :=
  ∀ x y : Reg,
    decode (wordXyn 0x8 x y 0x4) = some (.addReg x y) ∧
    ∀ s : State, ∃ t, exec (.addReg x y) s = .next t ∧ RetiresTo (s.pc + 2) t ∧
      FlagResult x (((s.reg x).toNat + (s.reg y).toNat) % 256)
        (if (s.reg x).toNat + (s.reg y).toNat > 255 then 1 else 0) s t ∧
      ChangesOnly { regs := [x, VF] } s t

/-- R119, R121, with R111 for x = 15: the flag is strict. -/
def Obligations.SubtractionsSetNoBorrow : Prop :=
  ∀ x y : Reg,
    decode (wordXyn 0x8 x y 0x5) = some (.subReg x y) ∧ decode (wordXyn 0x8 x y 0x7) = some (.subnReg x y) ∧
    ∀ s : State,
      (∃ t, exec (.subReg x y) s = .next t ∧ RetiresTo (s.pc + 2) t ∧
        FlagResult x ((((s.reg x).toNat : Int) - (s.reg y).toNat) % 256).toNat
          (if (s.reg x).toNat > (s.reg y).toNat then 1 else 0) s t ∧
        ChangesOnly { regs := [x, VF] } s t) ∧
      (∃ t, exec (.subnReg x y) s = .next t ∧ RetiresTo (s.pc + 2) t ∧
        FlagResult x ((((s.reg y).toNat : Int) - (s.reg x).toNat) % 256).toNat
          (if (s.reg y).toNat > (s.reg x).toNat then 1 else 0) s t ∧
        ChangesOnly { regs := [x, VF] } s t)

/-- R120, R122, with R111 for x = 15: any y selects the shift and is ignored. -/
def Obligations.ShiftsSetTheBitShiftedOut : Prop :=
  ∀ x y : Reg,
    decode (wordXyn 0x8 x y 0x6) = some (.shr x y) ∧ decode (wordXyn 0x8 x y 0xE) = some (.shl x y) ∧
    ∀ s : State,
      (∃ t, exec (.shr x y) s = .next t ∧ RetiresTo (s.pc + 2) t ∧
        FlagResult x ((s.reg x).toNat / 2) ((s.reg x).toNat % 2) s t ∧ ChangesOnly { regs := [x, VF] } s t) ∧
      (∃ t, exec (.shl x y) s = .next t ∧ RetiresTo (s.pc + 2) t ∧
        FlagResult x ((s.reg x).toNat * 2 % 256) ((s.reg x).toNat / 128) s t ∧ ChangesOnly { regs := [x, VF] } s t)

/-- R123: the byte drawn is the host's next one, or a free value where the state names none (notes/assumptions/5.md), masked by
kk; the draw is used up. -/
def Obligations.RandomByteIsMasked : Prop :=
  ∀ (x : Reg) (kk : Byte),
    decode (wordXkk 0xC x kk) = some (.rnd x kk) ∧
    ∀ s : State, ∃ t, exec (.rnd x kk) s = .next t ∧ RetiresTo (s.pc + 2) t ∧
      (∀ b rest, s.rndIn = b :: rest → t.reg x = b &&& kk ∧ t.rndIn = rest ∧ t.rndUsed = s.rndUsed) ∧
      (s.rndIn = [] → t.reg x = Config.freeRandom s.rndUsed &&& kk ∧ t.rndIn = [] ∧ t.rndUsed = s.rndUsed + 1) ∧
      ChangesOnly { regs := [x], random := true } s t

/-! ### Address register and memory -/

/-- R130, R131, R132. -/
def Obligations.AddressRegisterInstructions : Prop :=
  ∀ (x : Reg) (nnn : BitVec 12),
    decode (wordNnn 0xA nnn) = some (.ldI nnn) ∧ decode (wordXkk 0xF x 0x1E) = some (.addI x) ∧
    decode (wordXkk 0xF x 0x29) = some (.ldF x) ∧
    ∀ s : State,
      (∃ t, exec (.ldI nnn) s = .next t ∧ RetiresTo (s.pc + 2) t ∧ t.i.toNat = nnn.toNat ∧ ChangesOnly { i := true } s t) ∧
      (∃ t, exec (.addI x) s = .next t ∧ RetiresTo (s.pc + 2) t ∧
        t.i.toNat = (s.i.toNat + (s.reg x).toNat) % 65536 ∧ ChangesOnly { i := true } s t) ∧
      (∃ t, exec (.ldF x) s = .next t ∧ RetiresTo (s.pc + 2) t ∧
        t.i.toNat = (s.cfg.fontBase + 5 * (s.reg x).toNat) % 65536 ∧ ChangesOnly { i := true } s t)

/-- R133: the bytes stored to are the three from I, the address the instruction computes. -/
def Obligations.BcdStoresThreeDigits : Prop :=
  ∀ x : Reg,
    decode (wordXkk 0xF x 0x33) = some (.ldB x) ∧
    ∀ s : State,
      (s.i.toNat + 2 ≥ 4096 → ∃ t, exec (.ldB x) s = .next t ∧ FaultsWith .outOfBoundsWrite (some (wordXkk 0xF x 0x33)) s t) ∧
      (s.memWf → s.i.toNat + 2 < 4096 → ∃ t, exec (.ldB x) s = .next t ∧ RetiresTo (s.pc + 2) t ∧
        (t.readByte s.i.toNat).toNat = (s.reg x).toNat / 100 ∧
        (t.readByte (s.i.toNat + 1)).toNat = (s.reg x).toNat / 10 % 10 ∧
        (t.readByte (s.i.toNat + 2)).toNat = (s.reg x).toNat % 10 ∧
        ChangesOnly { memAt := s.i.toNat, memLen := 3 } s t)

/-- R134, R136: the bytes stored to are the x + 1 from I. -/
def Obligations.BlockStoreWritesMemory : Prop :=
  ∀ x : Reg,
    decode (wordXkk 0xF x 0x55) = some (.ldMemVx x) ∧
    ∀ s : State,
      (s.i.toNat + x.val ≥ 4096 →
        ∃ t, exec (.ldMemVx x) s = .next t ∧ FaultsWith .outOfBoundsWrite (some (wordXkk 0xF x 0x55)) s t) ∧
      (s.memWf → s.i.toNat + x.val < 4096 → ∃ t, exec (.ldMemVx x) s = .next t ∧ RetiresTo (s.pc + 2) t ∧
        (∀ k : Reg, k ≤ x → t.readByte (s.i.toNat + k.val) = s.reg k) ∧ BlockAdvances x s t ∧
        ChangesOnly { i := true, memAt := s.i.toNat, memLen := x.val + 1 } s t)

/-- R135, R136: V0 to Vx are loaded; the registers above x and every byte of memory are unchanged. -/
def Obligations.BlockLoadReadsMemory : Prop :=
  ∀ x : Reg,
    decode (wordXkk 0xF x 0x65) = some (.ldVxMem x) ∧
    ∀ s : State,
      (s.i.toNat + x.val ≥ 4096 →
        ∃ t, exec (.ldVxMem x) s = .next t ∧ FaultsWith .outOfBoundsRead (some (wordXkk 0xF x 0x65)) s t) ∧
      (s.i.toNat + x.val < 4096 → ∃ t, exec (.ldVxMem x) s = .next t ∧ RetiresTo (s.pc + 2) t ∧
        (∀ k : Reg, k ≤ x → t.reg k = s.readByte (s.i.toNat + k.val)) ∧ BlockAdvances x s t ∧
        ChangesOnly { regs := regsTo x, i := true } s t)

/-- R134, R135: what FX55 stored, FX65 from the same I loads back, whatever registers changed between. -/
def Obligations.BlockStoreThenLoadRestores : Prop :=
  ∀ (s : State) (x : Reg), s.memWf → s.i.toNat + x.val < 4096 →
    ∃ t, exec (.ldMemVx x) s = .next t ∧
      ∀ u : State, u.cfg = t.cfg → u.mem = t.mem → u.i = s.i →
        ∃ v, exec (.ldVxMem x) u = .next v ∧ ∀ k : Reg, k ≤ x → v.reg k = s.reg k

/-- R63, R208: wherever FX55 or FX33 stores over one byte or both of the next instruction, what it stored is what the very next
fetch reads there. -/
def Obligations.StoredBytesAreFetchedNext : Prop :=
  ∀ (s : State) (x : Reg), s.memWf → s.pc.toNat + 3 < 4096 →
    (s.i.toNat + x.val < 4096 → ∃ t w, exec (.ldMemVx x) s = .next t ∧ t.fetch = some w ∧
      ∀ k : Reg, k ≤ x →
        (s.pc.toNat + 2 = s.i.toNat + k.val → w.toNat / 256 = (s.reg k).toNat) ∧
        (s.pc.toNat + 3 = s.i.toNat + k.val → w.toNat % 256 = (s.reg k).toNat)) ∧
    (s.i.toNat + 2 < 4096 → ∃ t w, exec (.ldB x) s = .next t ∧ t.fetch = some w ∧
      ∀ k : Fin 3,
        (s.pc.toNat + 2 = s.i.toNat + k.val → w.toNat / 256 = DigitOf (s.reg x) k) ∧
        (s.pc.toNat + 3 = s.i.toNat + k.val → w.toNat % 256 = DigitOf (s.reg x) k))

/-! ### Timers, keys, draw -/

/-- R150, R151, R152. -/
def Obligations.TimerInstructions : Prop :=
  ∀ x : Reg,
    decode (wordXkk 0xF x 0x07) = some (.ldVxDt x) ∧ decode (wordXkk 0xF x 0x15) = some (.ldDtVx x) ∧
    decode (wordXkk 0xF x 0x18) = some (.ldStVx x) ∧
    ∀ s : State,
      (∃ t, exec (.ldVxDt x) s = .next t ∧ RetiresTo (s.pc + 2) t ∧ t.reg x = s.dt ∧ ChangesOnly { regs := [x] } s t) ∧
      (∃ t, exec (.ldDtVx x) s = .next t ∧ RetiresTo (s.pc + 2) t ∧ t.dt = s.reg x ∧ ChangesOnly { dt := true } s t) ∧
      (∃ t, exec (.ldStVx x) s = .next t ∧ RetiresTo (s.pc + 2) t ∧ t.st = s.reg x ∧ ChangesOnly { st := true } s t)

/-- R155, R156. -/
def Obligations.SkipsOnTheKey : Prop :=
  ∀ x : Reg,
    decode (wordXkk 0xE x 0x9E) = some (.skp x) ∧ decode (wordXkk 0xE x 0xA1) = some (.sknp x) ∧
    ∀ s : State,
      ∃ t u, exec (.skp x) s = .next t ∧ exec (.sknp x) s = .next u ∧ ChangesOnly {} s t ∧ ChangesOnly {} s u ∧
        ((∃ k, s.key = some k ∧ k.val = (s.reg x).toNat) → RetiresTo (s.pc + 4) t ∧ RetiresTo (s.pc + 2) u) ∧
        (¬ (∃ k, s.key = some k ∧ k.val = (s.reg x).toNat) → RetiresTo (s.pc + 2) t ∧ RetiresTo (s.pc + 4) u)

/-- R157, one execution: no key holds with nothing written; a key is stored and not consumed. -/
def Obligations.WaitForKeyHoldsOrStores : Prop :=
  ∀ x : Reg,
    decode (wordXkk 0xF x 0x0A) = some (.ldVxK x) ∧
    ∀ s : State,
      (s.key = none → exec (.ldVxK x) s = .next { s with es := .waiting }) ∧
      (∀ k, s.key = some k → ∃ t, exec (.ldVxK x) s = .next t ∧ RetiresTo (s.pc + 2) t ∧ (t.reg x).toNat = k.val ∧
        ChangesOnly { regs := [x] } s t)

/-- R157, R159: an engine held at FX0A stays held while no key comes, completes at the next step after the host writes a key, and
is Stopped, with Vx and pc unchanged, at the next step after the host writes STOP. -/
def Obligations.HoldIsLiftedByKeyOrStop : Prop :=
  ∀ (s : State) (w : Word) (x : Reg), s.Live → s.stop = false → s.key = none → s.fetch = some w →
    decode w = some (.ldVxK x) →
      ∃ t, engineStep s = .next t ∧ t.es = .waiting ∧ t.pc = s.pc ∧ engineStep t = .next t ∧
        (∀ k, ∃ t' u, perform (.setKey (some k)) t = .next t' ∧ engineStep t' = .next u ∧ (u.reg x).toNat = k.val ∧
          RetiresTo (s.pc + 2) u ∧ u.key = some k) ∧
        (∃ t' u, perform .setStop t = .next t' ∧ engineStep t' = .next u ∧ u.es = .stopped ∧ u.pc = s.pc ∧
          u.reg x = s.reg x)

/-- R170, R172: DXYN exclusive-ors each pixel of the surface that wraps both axes with the sprite's bit there. R171: VF alone may
change among the registers, and only under Collision (the spec's decision D24, notes/assumptions/13.md; its value:
`Obligations.CollisionFlag`). -/
def Obligations.DrawXorsEveryPixel : Prop :=
  ∀ (x y : Reg) (n : BitVec 4),
    decode (wordXyn 0xD x y n) = some (.drw x y n) ∧
    ∀ s : State,
      (s.i.toNat + n.toNat > 4096 →
        ∃ t, exec (.drw x y n) s = .next t ∧ FaultsWith .outOfBoundsRead (some (wordXyn 0xD x y n)) s t) ∧
      (s.i.toNat + n.toNat ≤ 4096 → ∃ t, exec (.drw x y n) s = .next t ∧ RetiresTo (s.pc + 2) t ∧
        (∀ c r, t.fb.pixel c r = (s.fb.pixel c r ^^ SpriteSets s x y n c r)) ∧
        ChangesOnly { fb := true, regs := if s.cfg.drawVf = .collision then [VF] else [] } s t)

/-- R171: under Unchanged VF is not written; under Collision it is 1 exactly when some pixel went from on to off, and the
coordinates are the old registers', VF's among them. -/
def Obligations.CollisionFlag : Prop :=
  ∀ (x y : Reg) (n : BitVec 4) (s : State), s.i.toNat + n.toNat ≤ 4096 →
    ∃ t, exec (.drw x y n) s = .next t ∧
      (∀ c r, t.fb.pixel c r = (s.fb.pixel c r ^^ SpriteSets s x y n c r)) ∧
      (s.cfg.drawVf = .unchanged → t.reg VF = s.reg VF) ∧
      (s.cfg.drawVf = .collision →
        ((∃ c r, s.fb.pixel c r = true ∧ t.fb.pixel c r = false) → t.reg VF = 1) ∧
        ((∀ c r, s.fb.pixel c r = true → t.fb.pixel c r = true) → t.reg VF = 0))

/-- R170: drawing the same sprite twice exclusive-ors both sprites, and restores the framebuffer where the second origin is the
first. It is, but where Vx or Vy is VF and R171 writes it (under Collision, the spec's decision D24, notes/assumptions/13.md). -/
def Obligations.DrawingTwiceRestores : Prop :=
  ∀ (x y : Reg) (n : BitVec 4) (s : State), s.i.toNat + n.toNat ≤ 4096 →
    ∃ t u, exec (.drw x y n) s = .next t ∧ exec (.drw x y n) t = .next u ∧
      (∀ c r, u.fb.pixel c r = (s.fb.pixel c r ^^ SpriteSets s x y n c r ^^ SpriteSets t x y n c r)) ∧
      ((t.reg x).toNat % 64 = (s.reg x).toNat % 64 → (t.reg y).toNat % 32 = (s.reg y).toNat % 32 → u.fb = s.fb) ∧
      ((s.cfg.drawVf = .unchanged ∨ (x ≠ VF ∧ y ≠ VF)) → u.fb = s.fb)

/-! ### Reset, load, timers and the host -/

/-- R36: every piece of state at its reset value, under any parameters; memory is FONT_DATA at FONT_BASE and 0 elsewhere. The
values of I, SP, the slots, DT, ST, KEY, STOP, FR and the framebuffer are the spec's decision D22 (notes/assumptions/11.md,
notes/assumptions/13.md). -/
def Obligations.ResetValues : Prop :=
  ∀ c : Config, ∀ s : State, s = State.resetWith c →
    (∀ r, s.reg r = 0) ∧ s.i = 0 ∧ s.pc = 0x200 ∧ s.sp = 0 ∧ (∀ k, s.slot k = 0) ∧ s.dt = 0 ∧ s.st = 0 ∧ s.key = none ∧
    s.stop = false ∧ s.es = .idle ∧ s.fr = none ∧ (∀ x y, s.fb.pixel x y = false) ∧
    (∀ k : Fin 80, s.readByte (c.fontBase + k.val) = c.fontData[k.val]) ∧
    (∀ a, a < c.fontBase ∨ c.fontBase + 80 ≤ a → s.readByte a = 0)

/-- R158, R159, R190, R200: the host's operations are taken in every state. `set_key` writes KEY and `set_stop` STOP and
nothing else; `reset` gives every piece of the spec's state its value of R36. -/
def Obligations.HostOperationsAreAlwaysTaken : Prop :=
  ∀ s : State,
    (∀ k, perform (.setKey k) s = .next { s with key := k }) ∧
    perform .setStop s = .next { s with stop := true } ∧
    (∃ t, perform .reset s = .next t ∧
      { t with agenda := [], rndIn := [], rndUsed := 0 } = State.resetWith s.cfg ∧ t.agenda = s.agenda)

/-- R204: an image of at most 3584 bytes is copied from 0x200 up and changes nothing else. The status as a function of the image,
and a copy over what an earlier load left, are the model's choice (notes/assumptions/10.md); that a load comes before the first
step is R190 and R203. -/
def Obligations.LoadCopiesTheImage : Prop :=
  ∀ (s : State) (image : List Byte), s.memWf → s.started = false → image.length ≤ 3584 →
    loadStatus image = .ok ∧ ∃ t, perform (.load image) s = .next t ∧
      (∀ k, (h : k < image.length) → t.readByte (0x200 + k) = image[k]) ∧ t.pc = s.pc ∧ t.es = s.es ∧
      ChangesOnly { memAt := 0x200, memLen := image.length } s t

/-- R205: a longer image is refused with the status ProgramTooLarge and changes nothing. R203 (the spec's decision D26): once a
step has been taken no image is loaded. That a step has been taken is the model's field `started` (notes/assumptions/10.md): an
engine step sets it, and under every action but reset it stays set. -/
def Obligations.LoadIsRefusedWhenTooLargeOrTooLate : Prop :=
  (∀ (s : State) (image : List Byte),
    (s.started = false → image.length > 3584 →
      loadStatus image = .programTooLarge ∧ perform (.load image) s = .next s) ∧
    (s.started = true → perform (.load image) s = .refused .loadAfterFirstStep)) ∧
  (∀ s t : State, engineStep s = .next t → t.started = true) ∧
  ∀ (s t : State) (a : Action), a ≠ .reset → perform a s = .next t → s.started = true → t.started = true

/-- R153: each timer action is enabled exactly when STOP = 0 and its timer is above zero, whatever ES is, and takes one off it. -/
def Obligations.TimerActions : Prop :=
  ∀ s : State,
    (s.stop = false → 0 < s.dt.toNat → ∃ t, perform .decDT s = .next t ∧ t.dt.toNat + 1 = s.dt.toNat ∧ t.pc = s.pc ∧
      t.es = s.es ∧ ChangesOnly { dt := true } s t) ∧
    (s.stop = false → 0 < s.st.toNat → ∃ t, perform .decST s = .next t ∧ t.st.toNat + 1 = s.st.toNat ∧ t.pc = s.pc ∧
      t.es = s.es ∧ ChangesOnly { st := true } s t) ∧
    (s.stop = true ∨ s.dt.toNat = 0 → perform .decDT s = .refused .timerNotEnabled) ∧
    (s.stop = true ∨ s.st.toNat = 0 → perform .decST s = .refused .timerNotEnabled)

/-- R153 (and the source's property L1-6): with STOP clear, exactly DT decrements take DT to zero, and one more is not enabled. -/
def Obligations.DelayTimerCountsDownToZero : Prop :=
  ∀ s : State, s.stop = false → s.agenda = List.replicate s.dt.toNat .decDT →
    ∃ t, Sys2Proof.core.run s.dt.toNat s = .next t ∧ t.dt = 0 ∧ t.agenda = [] ∧
      perform .decDT t = .refused .timerNotEnabled

/-- R153, R154: in a weakly fair run in which, from some moment on, STOP stays clear and no action raises DT, the delay timer
reaches 0. Nothing bounds how many actions of the other agents come between two decrements. -/
def Obligations.FairRunsEmptyTheDelayTimer : Prop :=
  ∀ (ρ : Run) (n : Nat), ρ.WeaklyFair →
    (∀ m, n ≤ m → (ρ.states m).stop = false ∧ (ρ.states (m + 1)).dt.toNat ≤ (ρ.states m).dt.toNat) →
      ∃ m, n ≤ m ∧ (ρ.states m).dt = 0
end

