-- ==== Sys2Proof/Laws/State.lean ====
section
/-! SUPPORT. One lemma per field of the state per update of it: what the update writes, and that it leaves the field alone. -/

namespace Sys2Proof.Machine

variable (s : State)

/-! ### `State.setReg` -/
@[simp] theorem State.setReg_cfg (x : Reg) (b : Byte) : (s.setReg x b).cfg = s.cfg := rfl
@[simp] theorem State.setReg_v (x : Reg) (b : Byte) : (s.setReg x b).v = s.v.set x b := rfl
@[simp] theorem State.setReg_i (x : Reg) (b : Byte) : (s.setReg x b).i = s.i := rfl
@[simp] theorem State.setReg_pc (x : Reg) (b : Byte) : (s.setReg x b).pc = s.pc := rfl
@[simp] theorem State.setReg_sp (x : Reg) (b : Byte) : (s.setReg x b).sp = s.sp := rfl
@[simp] theorem State.setReg_stack (x : Reg) (b : Byte) : (s.setReg x b).stack = s.stack := rfl
@[simp] theorem State.setReg_dt (x : Reg) (b : Byte) : (s.setReg x b).dt = s.dt := rfl
@[simp] theorem State.setReg_st (x : Reg) (b : Byte) : (s.setReg x b).st = s.st := rfl
@[simp] theorem State.setReg_key (x : Reg) (b : Byte) : (s.setReg x b).key = s.key := rfl
@[simp] theorem State.setReg_stop (x : Reg) (b : Byte) : (s.setReg x b).stop = s.stop := rfl
@[simp] theorem State.setReg_es (x : Reg) (b : Byte) : (s.setReg x b).es = s.es := rfl
@[simp] theorem State.setReg_fr (x : Reg) (b : Byte) : (s.setReg x b).fr = s.fr := rfl
@[simp] theorem State.setReg_fb (x : Reg) (b : Byte) : (s.setReg x b).fb = s.fb := rfl
@[simp] theorem State.setReg_mem (x : Reg) (b : Byte) : (s.setReg x b).mem = s.mem := rfl
@[simp] theorem State.setReg_started (x : Reg) (b : Byte) : (s.setReg x b).started = s.started := rfl
@[simp] theorem State.setReg_agenda (x : Reg) (b : Byte) : (s.setReg x b).agenda = s.agenda := rfl
@[simp] theorem State.setReg_rndIn (x : Reg) (b : Byte) : (s.setReg x b).rndIn = s.rndIn := rfl
@[simp] theorem State.setReg_rndUsed (x : Reg) (b : Byte) : (s.setReg x b).rndUsed = s.rndUsed := rfl
@[simp] theorem State.setReg_readByte (x : Reg) (b : Byte) (ad : Nat) : (s.setReg x b).readByte ad = s.readByte ad := by simp [State.readByte]
@[simp] theorem State.setReg_fetch (x : Reg) (b : Byte) : (s.setReg x b).fetch = s.fetch := by simp [State.fetch]
@[simp] theorem State.setReg_slot (x : Reg) (b : Byte) (ix : Nat) : (s.setReg x b).slot ix = s.slot ix := by simp [State.slot]

/-! ### `State.setRegsUpTo` -/
@[simp] theorem State.setRegsUpTo_cfg (x : Reg) (f : Nat → Byte) : (s.setRegsUpTo x f).cfg = s.cfg := rfl
@[simp] theorem State.setRegsUpTo_i (x : Reg) (f : Nat → Byte) : (s.setRegsUpTo x f).i = s.i := rfl
@[simp] theorem State.setRegsUpTo_pc (x : Reg) (f : Nat → Byte) : (s.setRegsUpTo x f).pc = s.pc := rfl
@[simp] theorem State.setRegsUpTo_sp (x : Reg) (f : Nat → Byte) : (s.setRegsUpTo x f).sp = s.sp := rfl
@[simp] theorem State.setRegsUpTo_stack (x : Reg) (f : Nat → Byte) : (s.setRegsUpTo x f).stack = s.stack := rfl
@[simp] theorem State.setRegsUpTo_dt (x : Reg) (f : Nat → Byte) : (s.setRegsUpTo x f).dt = s.dt := rfl
@[simp] theorem State.setRegsUpTo_st (x : Reg) (f : Nat → Byte) : (s.setRegsUpTo x f).st = s.st := rfl
@[simp] theorem State.setRegsUpTo_key (x : Reg) (f : Nat → Byte) : (s.setRegsUpTo x f).key = s.key := rfl
@[simp] theorem State.setRegsUpTo_stop (x : Reg) (f : Nat → Byte) : (s.setRegsUpTo x f).stop = s.stop := rfl
@[simp] theorem State.setRegsUpTo_es (x : Reg) (f : Nat → Byte) : (s.setRegsUpTo x f).es = s.es := rfl
@[simp] theorem State.setRegsUpTo_fr (x : Reg) (f : Nat → Byte) : (s.setRegsUpTo x f).fr = s.fr := rfl
@[simp] theorem State.setRegsUpTo_fb (x : Reg) (f : Nat → Byte) : (s.setRegsUpTo x f).fb = s.fb := rfl
@[simp] theorem State.setRegsUpTo_mem (x : Reg) (f : Nat → Byte) : (s.setRegsUpTo x f).mem = s.mem := rfl
@[simp] theorem State.setRegsUpTo_started (x : Reg) (f : Nat → Byte) : (s.setRegsUpTo x f).started = s.started := rfl
@[simp] theorem State.setRegsUpTo_agenda (x : Reg) (f : Nat → Byte) : (s.setRegsUpTo x f).agenda = s.agenda := rfl
@[simp] theorem State.setRegsUpTo_rndIn (x : Reg) (f : Nat → Byte) : (s.setRegsUpTo x f).rndIn = s.rndIn := rfl
@[simp] theorem State.setRegsUpTo_rndUsed (x : Reg) (f : Nat → Byte) : (s.setRegsUpTo x f).rndUsed = s.rndUsed := rfl
@[simp] theorem State.setRegsUpTo_readByte (x : Reg) (f : Nat → Byte) (ad : Nat) : (s.setRegsUpTo x f).readByte ad = s.readByte ad := by simp [State.readByte]
@[simp] theorem State.setRegsUpTo_fetch (x : Reg) (f : Nat → Byte) : (s.setRegsUpTo x f).fetch = s.fetch := by simp [State.fetch]
@[simp] theorem State.setRegsUpTo_slot (x : Reg) (f : Nat → Byte) (ix : Nat) : (s.setRegsUpTo x f).slot ix = s.slot ix := by simp [State.slot]

/-! ### `State.setI` -/
@[simp] theorem State.setI_cfg (w : Word) : (s.setI w).cfg = s.cfg := rfl
@[simp] theorem State.setI_v (w : Word) : (s.setI w).v = s.v := rfl
@[simp] theorem State.setI_i (w : Word) : (s.setI w).i = w := rfl
@[simp] theorem State.setI_pc (w : Word) : (s.setI w).pc = s.pc := rfl
@[simp] theorem State.setI_sp (w : Word) : (s.setI w).sp = s.sp := rfl
@[simp] theorem State.setI_stack (w : Word) : (s.setI w).stack = s.stack := rfl
@[simp] theorem State.setI_dt (w : Word) : (s.setI w).dt = s.dt := rfl
@[simp] theorem State.setI_st (w : Word) : (s.setI w).st = s.st := rfl
@[simp] theorem State.setI_key (w : Word) : (s.setI w).key = s.key := rfl
@[simp] theorem State.setI_stop (w : Word) : (s.setI w).stop = s.stop := rfl
@[simp] theorem State.setI_es (w : Word) : (s.setI w).es = s.es := rfl
@[simp] theorem State.setI_fr (w : Word) : (s.setI w).fr = s.fr := rfl
@[simp] theorem State.setI_fb (w : Word) : (s.setI w).fb = s.fb := rfl
@[simp] theorem State.setI_mem (w : Word) : (s.setI w).mem = s.mem := rfl
@[simp] theorem State.setI_started (w : Word) : (s.setI w).started = s.started := rfl
@[simp] theorem State.setI_agenda (w : Word) : (s.setI w).agenda = s.agenda := rfl
@[simp] theorem State.setI_rndIn (w : Word) : (s.setI w).rndIn = s.rndIn := rfl
@[simp] theorem State.setI_rndUsed (w : Word) : (s.setI w).rndUsed = s.rndUsed := rfl
@[simp] theorem State.setI_reg (w : Word) (r : Reg) : (s.setI w).reg r = s.reg r := by simp [State.reg]
@[simp] theorem State.setI_readByte (w : Word) (ad : Nat) : (s.setI w).readByte ad = s.readByte ad := by simp [State.readByte]
@[simp] theorem State.setI_fetch (w : Word) : (s.setI w).fetch = s.fetch := by simp [State.fetch]
@[simp] theorem State.setI_slot (w : Word) (ix : Nat) : (s.setI w).slot ix = s.slot ix := by simp [State.slot]

/-! ### `State.setDT` -/
@[simp] theorem State.setDT_cfg (b : Byte) : (s.setDT b).cfg = s.cfg := rfl
@[simp] theorem State.setDT_v (b : Byte) : (s.setDT b).v = s.v := rfl
@[simp] theorem State.setDT_i (b : Byte) : (s.setDT b).i = s.i := rfl
@[simp] theorem State.setDT_pc (b : Byte) : (s.setDT b).pc = s.pc := rfl
@[simp] theorem State.setDT_sp (b : Byte) : (s.setDT b).sp = s.sp := rfl
@[simp] theorem State.setDT_stack (b : Byte) : (s.setDT b).stack = s.stack := rfl
@[simp] theorem State.setDT_dt (b : Byte) : (s.setDT b).dt = b := rfl
@[simp] theorem State.setDT_st (b : Byte) : (s.setDT b).st = s.st := rfl
@[simp] theorem State.setDT_key (b : Byte) : (s.setDT b).key = s.key := rfl
@[simp] theorem State.setDT_stop (b : Byte) : (s.setDT b).stop = s.stop := rfl
@[simp] theorem State.setDT_es (b : Byte) : (s.setDT b).es = s.es := rfl
@[simp] theorem State.setDT_fr (b : Byte) : (s.setDT b).fr = s.fr := rfl
@[simp] theorem State.setDT_fb (b : Byte) : (s.setDT b).fb = s.fb := rfl
@[simp] theorem State.setDT_mem (b : Byte) : (s.setDT b).mem = s.mem := rfl
@[simp] theorem State.setDT_started (b : Byte) : (s.setDT b).started = s.started := rfl
@[simp] theorem State.setDT_agenda (b : Byte) : (s.setDT b).agenda = s.agenda := rfl
@[simp] theorem State.setDT_rndIn (b : Byte) : (s.setDT b).rndIn = s.rndIn := rfl
@[simp] theorem State.setDT_rndUsed (b : Byte) : (s.setDT b).rndUsed = s.rndUsed := rfl
@[simp] theorem State.setDT_reg (b : Byte) (r : Reg) : (s.setDT b).reg r = s.reg r := by simp [State.reg]
@[simp] theorem State.setDT_readByte (b : Byte) (ad : Nat) : (s.setDT b).readByte ad = s.readByte ad := by simp [State.readByte]
@[simp] theorem State.setDT_fetch (b : Byte) : (s.setDT b).fetch = s.fetch := by simp [State.fetch]
@[simp] theorem State.setDT_slot (b : Byte) (ix : Nat) : (s.setDT b).slot ix = s.slot ix := by simp [State.slot]

/-! ### `State.setST` -/
@[simp] theorem State.setST_cfg (b : Byte) : (s.setST b).cfg = s.cfg := rfl
@[simp] theorem State.setST_v (b : Byte) : (s.setST b).v = s.v := rfl
@[simp] theorem State.setST_i (b : Byte) : (s.setST b).i = s.i := rfl
@[simp] theorem State.setST_pc (b : Byte) : (s.setST b).pc = s.pc := rfl
@[simp] theorem State.setST_sp (b : Byte) : (s.setST b).sp = s.sp := rfl
@[simp] theorem State.setST_stack (b : Byte) : (s.setST b).stack = s.stack := rfl
@[simp] theorem State.setST_dt (b : Byte) : (s.setST b).dt = s.dt := rfl
@[simp] theorem State.setST_st (b : Byte) : (s.setST b).st = b := rfl
@[simp] theorem State.setST_key (b : Byte) : (s.setST b).key = s.key := rfl
@[simp] theorem State.setST_stop (b : Byte) : (s.setST b).stop = s.stop := rfl
@[simp] theorem State.setST_es (b : Byte) : (s.setST b).es = s.es := rfl
@[simp] theorem State.setST_fr (b : Byte) : (s.setST b).fr = s.fr := rfl
@[simp] theorem State.setST_fb (b : Byte) : (s.setST b).fb = s.fb := rfl
@[simp] theorem State.setST_mem (b : Byte) : (s.setST b).mem = s.mem := rfl
@[simp] theorem State.setST_started (b : Byte) : (s.setST b).started = s.started := rfl
@[simp] theorem State.setST_agenda (b : Byte) : (s.setST b).agenda = s.agenda := rfl
@[simp] theorem State.setST_rndIn (b : Byte) : (s.setST b).rndIn = s.rndIn := rfl
@[simp] theorem State.setST_rndUsed (b : Byte) : (s.setST b).rndUsed = s.rndUsed := rfl
@[simp] theorem State.setST_reg (b : Byte) (r : Reg) : (s.setST b).reg r = s.reg r := by simp [State.reg]
@[simp] theorem State.setST_readByte (b : Byte) (ad : Nat) : (s.setST b).readByte ad = s.readByte ad := by simp [State.readByte]
@[simp] theorem State.setST_fetch (b : Byte) : (s.setST b).fetch = s.fetch := by simp [State.fetch]
@[simp] theorem State.setST_slot (b : Byte) (ix : Nat) : (s.setST b).slot ix = s.slot ix := by simp [State.slot]

/-! ### `State.setFrame` -/
@[simp] theorem State.setFrame_cfg (f : Frame) : (s.setFrame f).cfg = s.cfg := rfl
@[simp] theorem State.setFrame_v (f : Frame) : (s.setFrame f).v = s.v := rfl
@[simp] theorem State.setFrame_i (f : Frame) : (s.setFrame f).i = s.i := rfl
@[simp] theorem State.setFrame_pc (f : Frame) : (s.setFrame f).pc = s.pc := rfl
@[simp] theorem State.setFrame_sp (f : Frame) : (s.setFrame f).sp = s.sp := rfl
@[simp] theorem State.setFrame_stack (f : Frame) : (s.setFrame f).stack = s.stack := rfl
@[simp] theorem State.setFrame_dt (f : Frame) : (s.setFrame f).dt = s.dt := rfl
@[simp] theorem State.setFrame_st (f : Frame) : (s.setFrame f).st = s.st := rfl
@[simp] theorem State.setFrame_key (f : Frame) : (s.setFrame f).key = s.key := rfl
@[simp] theorem State.setFrame_stop (f : Frame) : (s.setFrame f).stop = s.stop := rfl
@[simp] theorem State.setFrame_es (f : Frame) : (s.setFrame f).es = s.es := rfl
@[simp] theorem State.setFrame_fr (f : Frame) : (s.setFrame f).fr = s.fr := rfl
@[simp] theorem State.setFrame_fb (f : Frame) : (s.setFrame f).fb = f := rfl
@[simp] theorem State.setFrame_mem (f : Frame) : (s.setFrame f).mem = s.mem := rfl
@[simp] theorem State.setFrame_started (f : Frame) : (s.setFrame f).started = s.started := rfl
@[simp] theorem State.setFrame_agenda (f : Frame) : (s.setFrame f).agenda = s.agenda := rfl
@[simp] theorem State.setFrame_rndIn (f : Frame) : (s.setFrame f).rndIn = s.rndIn := rfl
@[simp] theorem State.setFrame_rndUsed (f : Frame) : (s.setFrame f).rndUsed = s.rndUsed := rfl
@[simp] theorem State.setFrame_reg (f : Frame) (r : Reg) : (s.setFrame f).reg r = s.reg r := by simp [State.reg]
@[simp] theorem State.setFrame_readByte (f : Frame) (ad : Nat) : (s.setFrame f).readByte ad = s.readByte ad := by simp [State.readByte]
@[simp] theorem State.setFrame_fetch (f : Frame) : (s.setFrame f).fetch = s.fetch := by simp [State.fetch]
@[simp] theorem State.setFrame_slot (f : Frame) (ix : Nat) : (s.setFrame f).slot ix = s.slot ix := by simp [State.slot]

/-! ### `State.goto` -/
@[simp] theorem State.goto_cfg (t : Word) : (s.goto t).cfg = s.cfg := rfl
@[simp] theorem State.goto_v (t : Word) : (s.goto t).v = s.v := rfl
@[simp] theorem State.goto_i (t : Word) : (s.goto t).i = s.i := rfl
@[simp] theorem State.goto_pc (t : Word) : (s.goto t).pc = t := rfl
@[simp] theorem State.goto_sp (t : Word) : (s.goto t).sp = s.sp := rfl
@[simp] theorem State.goto_stack (t : Word) : (s.goto t).stack = s.stack := rfl
@[simp] theorem State.goto_dt (t : Word) : (s.goto t).dt = s.dt := rfl
@[simp] theorem State.goto_st (t : Word) : (s.goto t).st = s.st := rfl
@[simp] theorem State.goto_key (t : Word) : (s.goto t).key = s.key := rfl
@[simp] theorem State.goto_stop (t : Word) : (s.goto t).stop = s.stop := rfl
@[simp] theorem State.goto_es (t : Word) : (s.goto t).es = .idle := rfl
@[simp] theorem State.goto_fr (t : Word) : (s.goto t).fr = s.fr := rfl
@[simp] theorem State.goto_fb (t : Word) : (s.goto t).fb = s.fb := rfl
@[simp] theorem State.goto_mem (t : Word) : (s.goto t).mem = s.mem := rfl
@[simp] theorem State.goto_started (t : Word) : (s.goto t).started = s.started := rfl
@[simp] theorem State.goto_agenda (t : Word) : (s.goto t).agenda = s.agenda := rfl
@[simp] theorem State.goto_rndIn (t : Word) : (s.goto t).rndIn = s.rndIn := rfl
@[simp] theorem State.goto_rndUsed (t : Word) : (s.goto t).rndUsed = s.rndUsed := rfl
@[simp] theorem State.goto_reg (t : Word) (r : Reg) : (s.goto t).reg r = s.reg r := by simp [State.reg]
@[simp] theorem State.goto_readByte (t : Word) (ad : Nat) : (s.goto t).readByte ad = s.readByte ad := by simp [State.readByte]
@[simp] theorem State.goto_slot (t : Word) (ix : Nat) : (s.goto t).slot ix = s.slot ix := by simp [State.slot]

/-! ### `State.advance` -/
@[simp] theorem State.advance_cfg : (s.advance).cfg = s.cfg := rfl
@[simp] theorem State.advance_v : (s.advance).v = s.v := rfl
@[simp] theorem State.advance_i : (s.advance).i = s.i := rfl
@[simp] theorem State.advance_pc : (s.advance).pc = s.pc + 2 := rfl
@[simp] theorem State.advance_sp : (s.advance).sp = s.sp := rfl
@[simp] theorem State.advance_stack : (s.advance).stack = s.stack := rfl
@[simp] theorem State.advance_dt : (s.advance).dt = s.dt := rfl
@[simp] theorem State.advance_st : (s.advance).st = s.st := rfl
@[simp] theorem State.advance_key : (s.advance).key = s.key := rfl
@[simp] theorem State.advance_stop : (s.advance).stop = s.stop := rfl
@[simp] theorem State.advance_es : (s.advance).es = .idle := rfl
@[simp] theorem State.advance_fr : (s.advance).fr = s.fr := rfl
@[simp] theorem State.advance_fb : (s.advance).fb = s.fb := rfl
@[simp] theorem State.advance_mem : (s.advance).mem = s.mem := rfl
@[simp] theorem State.advance_started : (s.advance).started = s.started := rfl
@[simp] theorem State.advance_agenda : (s.advance).agenda = s.agenda := rfl
@[simp] theorem State.advance_rndIn : (s.advance).rndIn = s.rndIn := rfl
@[simp] theorem State.advance_rndUsed : (s.advance).rndUsed = s.rndUsed := rfl
@[simp] theorem State.advance_reg (r : Reg) : (s.advance).reg r = s.reg r := by simp [State.reg]
@[simp] theorem State.advance_readByte (ad : Nat) : (s.advance).readByte ad = s.readByte ad := by simp [State.readByte]
@[simp] theorem State.advance_slot (ix : Nat) : (s.advance).slot ix = s.slot ix := by simp [State.slot]

/-! ### `State.skipNext` -/
@[simp] theorem State.skipNext_cfg : (s.skipNext).cfg = s.cfg := rfl
@[simp] theorem State.skipNext_v : (s.skipNext).v = s.v := rfl
@[simp] theorem State.skipNext_i : (s.skipNext).i = s.i := rfl
@[simp] theorem State.skipNext_pc : (s.skipNext).pc = s.pc + 4 := rfl
@[simp] theorem State.skipNext_sp : (s.skipNext).sp = s.sp := rfl
@[simp] theorem State.skipNext_stack : (s.skipNext).stack = s.stack := rfl
@[simp] theorem State.skipNext_dt : (s.skipNext).dt = s.dt := rfl
@[simp] theorem State.skipNext_st : (s.skipNext).st = s.st := rfl
@[simp] theorem State.skipNext_key : (s.skipNext).key = s.key := rfl
@[simp] theorem State.skipNext_stop : (s.skipNext).stop = s.stop := rfl
@[simp] theorem State.skipNext_es : (s.skipNext).es = .idle := rfl
@[simp] theorem State.skipNext_fr : (s.skipNext).fr = s.fr := rfl
@[simp] theorem State.skipNext_fb : (s.skipNext).fb = s.fb := rfl
@[simp] theorem State.skipNext_mem : (s.skipNext).mem = s.mem := rfl
@[simp] theorem State.skipNext_started : (s.skipNext).started = s.started := rfl
@[simp] theorem State.skipNext_agenda : (s.skipNext).agenda = s.agenda := rfl
@[simp] theorem State.skipNext_rndIn : (s.skipNext).rndIn = s.rndIn := rfl
@[simp] theorem State.skipNext_rndUsed : (s.skipNext).rndUsed = s.rndUsed := rfl
@[simp] theorem State.skipNext_reg (r : Reg) : (s.skipNext).reg r = s.reg r := by simp [State.reg]
@[simp] theorem State.skipNext_readByte (ad : Nat) : (s.skipNext).readByte ad = s.readByte ad := by simp [State.readByte]
@[simp] theorem State.skipNext_slot (ix : Nat) : (s.skipNext).slot ix = s.slot ix := by simp [State.slot]

/-! ### `State.skipIf` -/
@[simp] theorem State.skipIf_cfg (c : Bool) : (s.skipIf c).cfg = s.cfg := by cases c <;> rfl
@[simp] theorem State.skipIf_v (c : Bool) : (s.skipIf c).v = s.v := by cases c <;> rfl
@[simp] theorem State.skipIf_i (c : Bool) : (s.skipIf c).i = s.i := by cases c <;> rfl
@[simp] theorem State.skipIf_pc (c : Bool) : (s.skipIf c).pc = s.pc + (if c then 4 else 2) := by cases c <;> rfl
@[simp] theorem State.skipIf_sp (c : Bool) : (s.skipIf c).sp = s.sp := by cases c <;> rfl
@[simp] theorem State.skipIf_stack (c : Bool) : (s.skipIf c).stack = s.stack := by cases c <;> rfl
@[simp] theorem State.skipIf_dt (c : Bool) : (s.skipIf c).dt = s.dt := by cases c <;> rfl
@[simp] theorem State.skipIf_st (c : Bool) : (s.skipIf c).st = s.st := by cases c <;> rfl
@[simp] theorem State.skipIf_key (c : Bool) : (s.skipIf c).key = s.key := by cases c <;> rfl
@[simp] theorem State.skipIf_stop (c : Bool) : (s.skipIf c).stop = s.stop := by cases c <;> rfl
@[simp] theorem State.skipIf_es (c : Bool) : (s.skipIf c).es = .idle := by cases c <;> rfl
@[simp] theorem State.skipIf_fr (c : Bool) : (s.skipIf c).fr = s.fr := by cases c <;> rfl
@[simp] theorem State.skipIf_fb (c : Bool) : (s.skipIf c).fb = s.fb := by cases c <;> rfl
@[simp] theorem State.skipIf_mem (c : Bool) : (s.skipIf c).mem = s.mem := by cases c <;> rfl
@[simp] theorem State.skipIf_started (c : Bool) : (s.skipIf c).started = s.started := by cases c <;> rfl
@[simp] theorem State.skipIf_agenda (c : Bool) : (s.skipIf c).agenda = s.agenda := by cases c <;> rfl
@[simp] theorem State.skipIf_rndIn (c : Bool) : (s.skipIf c).rndIn = s.rndIn := by cases c <;> rfl
@[simp] theorem State.skipIf_rndUsed (c : Bool) : (s.skipIf c).rndUsed = s.rndUsed := by cases c <;> rfl
@[simp] theorem State.skipIf_reg (c : Bool) (r : Reg) : (s.skipIf c).reg r = s.reg r := by simp [State.reg]
@[simp] theorem State.skipIf_readByte (c : Bool) (ad : Nat) : (s.skipIf c).readByte ad = s.readByte ad := by simp [State.readByte]
@[simp] theorem State.skipIf_slot (c : Bool) (ix : Nat) : (s.skipIf c).slot ix = s.slot ix := by simp [State.slot]

/-! ### `State.hold` -/
@[simp] theorem State.hold_cfg : (s.hold).cfg = s.cfg := rfl
@[simp] theorem State.hold_v : (s.hold).v = s.v := rfl
@[simp] theorem State.hold_i : (s.hold).i = s.i := rfl
@[simp] theorem State.hold_pc : (s.hold).pc = s.pc := rfl
@[simp] theorem State.hold_sp : (s.hold).sp = s.sp := rfl
@[simp] theorem State.hold_stack : (s.hold).stack = s.stack := rfl
@[simp] theorem State.hold_dt : (s.hold).dt = s.dt := rfl
@[simp] theorem State.hold_st : (s.hold).st = s.st := rfl
@[simp] theorem State.hold_key : (s.hold).key = s.key := rfl
@[simp] theorem State.hold_stop : (s.hold).stop = s.stop := rfl
@[simp] theorem State.hold_es : (s.hold).es = .waiting := rfl
@[simp] theorem State.hold_fr : (s.hold).fr = s.fr := rfl
@[simp] theorem State.hold_fb : (s.hold).fb = s.fb := rfl
@[simp] theorem State.hold_mem : (s.hold).mem = s.mem := rfl
@[simp] theorem State.hold_started : (s.hold).started = s.started := rfl
@[simp] theorem State.hold_agenda : (s.hold).agenda = s.agenda := rfl
@[simp] theorem State.hold_rndIn : (s.hold).rndIn = s.rndIn := rfl
@[simp] theorem State.hold_rndUsed : (s.hold).rndUsed = s.rndUsed := rfl
@[simp] theorem State.hold_reg (r : Reg) : (s.hold).reg r = s.reg r := by simp [State.reg]
@[simp] theorem State.hold_readByte (ad : Nat) : (s.hold).readByte ad = s.readByte ad := by simp [State.readByte]
@[simp] theorem State.hold_fetch : (s.hold).fetch = s.fetch := by simp [State.fetch]
@[simp] theorem State.hold_slot (ix : Nat) : (s.hold).slot ix = s.slot ix := by simp [State.slot]

/-! ### `State.raise` -/
@[simp] theorem State.raise_cfg (f : FaultCode) (w : Option Word) : (s.raise f w).cfg = s.cfg := rfl
@[simp] theorem State.raise_v (f : FaultCode) (w : Option Word) : (s.raise f w).v = s.v := rfl
@[simp] theorem State.raise_i (f : FaultCode) (w : Option Word) : (s.raise f w).i = s.i := rfl
@[simp] theorem State.raise_pc (f : FaultCode) (w : Option Word) : (s.raise f w).pc = s.pc := rfl
@[simp] theorem State.raise_sp (f : FaultCode) (w : Option Word) : (s.raise f w).sp = s.sp := rfl
@[simp] theorem State.raise_stack (f : FaultCode) (w : Option Word) : (s.raise f w).stack = s.stack := rfl
@[simp] theorem State.raise_dt (f : FaultCode) (w : Option Word) : (s.raise f w).dt = s.dt := rfl
@[simp] theorem State.raise_st (f : FaultCode) (w : Option Word) : (s.raise f w).st = s.st := rfl
@[simp] theorem State.raise_key (f : FaultCode) (w : Option Word) : (s.raise f w).key = s.key := rfl
@[simp] theorem State.raise_stop (f : FaultCode) (w : Option Word) : (s.raise f w).stop = s.stop := rfl
@[simp] theorem State.raise_es (f : FaultCode) (w : Option Word) : (s.raise f w).es = .faulted := rfl
@[simp] theorem State.raise_fr (f : FaultCode) (w : Option Word) : (s.raise f w).fr = some ⟨f, s.pc, w⟩ := rfl
@[simp] theorem State.raise_fb (f : FaultCode) (w : Option Word) : (s.raise f w).fb = s.fb := rfl
@[simp] theorem State.raise_mem (f : FaultCode) (w : Option Word) : (s.raise f w).mem = s.mem := rfl
@[simp] theorem State.raise_started (f : FaultCode) (w : Option Word) : (s.raise f w).started = s.started := rfl
@[simp] theorem State.raise_agenda (f : FaultCode) (w : Option Word) : (s.raise f w).agenda = s.agenda := rfl
@[simp] theorem State.raise_rndIn (f : FaultCode) (w : Option Word) : (s.raise f w).rndIn = s.rndIn := rfl
@[simp] theorem State.raise_rndUsed (f : FaultCode) (w : Option Word) : (s.raise f w).rndUsed = s.rndUsed := rfl
@[simp] theorem State.raise_reg (f : FaultCode) (w : Option Word) (r : Reg) : (s.raise f w).reg r = s.reg r := by simp [State.reg]
@[simp] theorem State.raise_readByte (f : FaultCode) (w : Option Word) (ad : Nat) : (s.raise f w).readByte ad = s.readByte ad := by simp [State.readByte]
@[simp] theorem State.raise_fetch (f : FaultCode) (w : Option Word) : (s.raise f w).fetch = s.fetch := by simp [State.fetch]
@[simp] theorem State.raise_slot (f : FaultCode) (w : Option Word) (ix : Nat) : (s.raise f w).slot ix = s.slot ix := by simp [State.slot]

/-! ### `State.raiseBy` -/
@[simp] theorem State.raiseBy_cfg (f : FaultCode) (j : Instr) : (s.raiseBy f j).cfg = s.cfg := rfl
@[simp] theorem State.raiseBy_v (f : FaultCode) (j : Instr) : (s.raiseBy f j).v = s.v := rfl
@[simp] theorem State.raiseBy_i (f : FaultCode) (j : Instr) : (s.raiseBy f j).i = s.i := rfl
@[simp] theorem State.raiseBy_pc (f : FaultCode) (j : Instr) : (s.raiseBy f j).pc = s.pc := rfl
@[simp] theorem State.raiseBy_sp (f : FaultCode) (j : Instr) : (s.raiseBy f j).sp = s.sp := rfl
@[simp] theorem State.raiseBy_stack (f : FaultCode) (j : Instr) : (s.raiseBy f j).stack = s.stack := rfl
@[simp] theorem State.raiseBy_dt (f : FaultCode) (j : Instr) : (s.raiseBy f j).dt = s.dt := rfl
@[simp] theorem State.raiseBy_st (f : FaultCode) (j : Instr) : (s.raiseBy f j).st = s.st := rfl
@[simp] theorem State.raiseBy_key (f : FaultCode) (j : Instr) : (s.raiseBy f j).key = s.key := rfl
@[simp] theorem State.raiseBy_stop (f : FaultCode) (j : Instr) : (s.raiseBy f j).stop = s.stop := rfl
@[simp] theorem State.raiseBy_es (f : FaultCode) (j : Instr) : (s.raiseBy f j).es = .faulted := rfl
@[simp] theorem State.raiseBy_fr (f : FaultCode) (j : Instr) : (s.raiseBy f j).fr = some ⟨f, s.pc, some (encode j)⟩ := rfl
@[simp] theorem State.raiseBy_fb (f : FaultCode) (j : Instr) : (s.raiseBy f j).fb = s.fb := rfl
@[simp] theorem State.raiseBy_mem (f : FaultCode) (j : Instr) : (s.raiseBy f j).mem = s.mem := rfl
@[simp] theorem State.raiseBy_started (f : FaultCode) (j : Instr) : (s.raiseBy f j).started = s.started := rfl
@[simp] theorem State.raiseBy_agenda (f : FaultCode) (j : Instr) : (s.raiseBy f j).agenda = s.agenda := rfl
@[simp] theorem State.raiseBy_rndIn (f : FaultCode) (j : Instr) : (s.raiseBy f j).rndIn = s.rndIn := rfl
@[simp] theorem State.raiseBy_rndUsed (f : FaultCode) (j : Instr) : (s.raiseBy f j).rndUsed = s.rndUsed := rfl
@[simp] theorem State.raiseBy_reg (f : FaultCode) (j : Instr) (r : Reg) : (s.raiseBy f j).reg r = s.reg r := by simp [State.reg]
@[simp] theorem State.raiseBy_readByte (f : FaultCode) (j : Instr) (ad : Nat) : (s.raiseBy f j).readByte ad = s.readByte ad := by simp [State.readByte]
@[simp] theorem State.raiseBy_fetch (f : FaultCode) (j : Instr) : (s.raiseBy f j).fetch = s.fetch := by simp [State.fetch]
@[simp] theorem State.raiseBy_slot (f : FaultCode) (j : Instr) (ix : Nat) : (s.raiseBy f j).slot ix = s.slot ix := by simp [State.slot]

/-! ### `State.pop` -/
@[simp] theorem State.pop_cfg : (s.pop).cfg = s.cfg := rfl
@[simp] theorem State.pop_v : (s.pop).v = s.v := rfl
@[simp] theorem State.pop_i : (s.pop).i = s.i := rfl
@[simp] theorem State.pop_pc : (s.pop).pc = s.pc := rfl
@[simp] theorem State.pop_stack : (s.pop).stack = s.stack := rfl
@[simp] theorem State.pop_dt : (s.pop).dt = s.dt := rfl
@[simp] theorem State.pop_st : (s.pop).st = s.st := rfl
@[simp] theorem State.pop_key : (s.pop).key = s.key := rfl
@[simp] theorem State.pop_stop : (s.pop).stop = s.stop := rfl
@[simp] theorem State.pop_es : (s.pop).es = s.es := rfl
@[simp] theorem State.pop_fr : (s.pop).fr = s.fr := rfl
@[simp] theorem State.pop_fb : (s.pop).fb = s.fb := rfl
@[simp] theorem State.pop_mem : (s.pop).mem = s.mem := rfl
@[simp] theorem State.pop_started : (s.pop).started = s.started := rfl
@[simp] theorem State.pop_agenda : (s.pop).agenda = s.agenda := rfl
@[simp] theorem State.pop_rndIn : (s.pop).rndIn = s.rndIn := rfl
@[simp] theorem State.pop_rndUsed : (s.pop).rndUsed = s.rndUsed := rfl
@[simp] theorem State.pop_reg (r : Reg) : (s.pop).reg r = s.reg r := by simp [State.reg]
@[simp] theorem State.pop_readByte (ad : Nat) : (s.pop).readByte ad = s.readByte ad := by simp [State.readByte]
@[simp] theorem State.pop_fetch : (s.pop).fetch = s.fetch := by simp [State.fetch]
@[simp] theorem State.pop_slot (ix : Nat) : (s.pop).slot ix = s.slot ix := by simp [State.slot]

/-! ### `State.push` -/
@[simp] theorem State.push_cfg (w : Word) : (s.push w).cfg = s.cfg := by unfold State.push; split <;> rfl
@[simp] theorem State.push_v (w : Word) : (s.push w).v = s.v := by unfold State.push; split <;> rfl
@[simp] theorem State.push_i (w : Word) : (s.push w).i = s.i := by unfold State.push; split <;> rfl
@[simp] theorem State.push_pc (w : Word) : (s.push w).pc = s.pc := by unfold State.push; split <;> rfl
@[simp] theorem State.push_dt (w : Word) : (s.push w).dt = s.dt := by unfold State.push; split <;> rfl
@[simp] theorem State.push_st (w : Word) : (s.push w).st = s.st := by unfold State.push; split <;> rfl
@[simp] theorem State.push_key (w : Word) : (s.push w).key = s.key := by unfold State.push; split <;> rfl
@[simp] theorem State.push_stop (w : Word) : (s.push w).stop = s.stop := by unfold State.push; split <;> rfl
@[simp] theorem State.push_es (w : Word) : (s.push w).es = s.es := by unfold State.push; split <;> rfl
@[simp] theorem State.push_fr (w : Word) : (s.push w).fr = s.fr := by unfold State.push; split <;> rfl
@[simp] theorem State.push_fb (w : Word) : (s.push w).fb = s.fb := by unfold State.push; split <;> rfl
@[simp] theorem State.push_mem (w : Word) : (s.push w).mem = s.mem := by unfold State.push; split <;> rfl
@[simp] theorem State.push_started (w : Word) : (s.push w).started = s.started := by unfold State.push; split <;> rfl
@[simp] theorem State.push_agenda (w : Word) : (s.push w).agenda = s.agenda := by unfold State.push; split <;> rfl
@[simp] theorem State.push_rndIn (w : Word) : (s.push w).rndIn = s.rndIn := by unfold State.push; split <;> rfl
@[simp] theorem State.push_rndUsed (w : Word) : (s.push w).rndUsed = s.rndUsed := by unfold State.push; split <;> rfl
@[simp] theorem State.push_reg (w : Word) (r : Reg) : (s.push w).reg r = s.reg r := by simp [State.reg]
@[simp] theorem State.push_readByte (w : Word) (ad : Nat) : (s.push w).readByte ad = s.readByte ad := by simp [State.readByte]
@[simp] theorem State.push_fetch (w : Word) : (s.push w).fetch = s.fetch := by simp [State.fetch]

/-! ### `State.writeback` -/
@[simp] theorem State.writeback_cfg (x : Reg) (r : Byte) (f : Bool) : (s.writeback x r f).cfg = s.cfg := by unfold State.writeback; split <;> rfl
@[simp] theorem State.writeback_i (x : Reg) (r : Byte) (f : Bool) : (s.writeback x r f).i = s.i := by unfold State.writeback; split <;> rfl
@[simp] theorem State.writeback_pc (x : Reg) (r : Byte) (f : Bool) : (s.writeback x r f).pc = s.pc := by unfold State.writeback; split <;> rfl
@[simp] theorem State.writeback_sp (x : Reg) (r : Byte) (f : Bool) : (s.writeback x r f).sp = s.sp := by unfold State.writeback; split <;> rfl
@[simp] theorem State.writeback_stack (x : Reg) (r : Byte) (f : Bool) : (s.writeback x r f).stack = s.stack := by unfold State.writeback; split <;> rfl
@[simp] theorem State.writeback_dt (x : Reg) (r : Byte) (f : Bool) : (s.writeback x r f).dt = s.dt := by unfold State.writeback; split <;> rfl
@[simp] theorem State.writeback_st (x : Reg) (r : Byte) (f : Bool) : (s.writeback x r f).st = s.st := by unfold State.writeback; split <;> rfl
@[simp] theorem State.writeback_key (x : Reg) (r : Byte) (f : Bool) : (s.writeback x r f).key = s.key := by unfold State.writeback; split <;> rfl
@[simp] theorem State.writeback_stop (x : Reg) (r : Byte) (f : Bool) : (s.writeback x r f).stop = s.stop := by unfold State.writeback; split <;> rfl
@[simp] theorem State.writeback_es (x : Reg) (r : Byte) (f : Bool) : (s.writeback x r f).es = s.es := by unfold State.writeback; split <;> rfl
@[simp] theorem State.writeback_fr (x : Reg) (r : Byte) (f : Bool) : (s.writeback x r f).fr = s.fr := by unfold State.writeback; split <;> rfl
@[simp] theorem State.writeback_fb (x : Reg) (r : Byte) (f : Bool) : (s.writeback x r f).fb = s.fb := by unfold State.writeback; split <;> rfl
@[simp] theorem State.writeback_mem (x : Reg) (r : Byte) (f : Bool) : (s.writeback x r f).mem = s.mem := by unfold State.writeback; split <;> rfl
@[simp] theorem State.writeback_started (x : Reg) (r : Byte) (f : Bool) : (s.writeback x r f).started = s.started := by unfold State.writeback; split <;> rfl
@[simp] theorem State.writeback_agenda (x : Reg) (r : Byte) (f : Bool) : (s.writeback x r f).agenda = s.agenda := by unfold State.writeback; split <;> rfl
@[simp] theorem State.writeback_rndIn (x : Reg) (r : Byte) (f : Bool) : (s.writeback x r f).rndIn = s.rndIn := by unfold State.writeback; split <;> rfl
@[simp] theorem State.writeback_rndUsed (x : Reg) (r : Byte) (f : Bool) : (s.writeback x r f).rndUsed = s.rndUsed := by unfold State.writeback; split <;> rfl
@[simp] theorem State.writeback_readByte (x : Reg) (r : Byte) (f : Bool) (ad : Nat) : (s.writeback x r f).readByte ad = s.readByte ad := by simp [State.readByte]
@[simp] theorem State.writeback_fetch (x : Reg) (r : Byte) (f : Bool) : (s.writeback x r f).fetch = s.fetch := by simp [State.fetch]
@[simp] theorem State.writeback_slot (x : Reg) (r : Byte) (f : Bool) (ix : Nat) : (s.writeback x r f).slot ix = s.slot ix := by simp [State.slot]

/-! ### `State.setCollision` -/
@[simp] theorem State.setCollision_cfg (hit : Bool) : (s.setCollision hit).cfg = s.cfg := by unfold State.setCollision; split <;> rfl
@[simp] theorem State.setCollision_i (hit : Bool) : (s.setCollision hit).i = s.i := by unfold State.setCollision; split <;> rfl
@[simp] theorem State.setCollision_pc (hit : Bool) : (s.setCollision hit).pc = s.pc := by unfold State.setCollision; split <;> rfl
@[simp] theorem State.setCollision_sp (hit : Bool) : (s.setCollision hit).sp = s.sp := by unfold State.setCollision; split <;> rfl
@[simp] theorem State.setCollision_stack (hit : Bool) : (s.setCollision hit).stack = s.stack := by unfold State.setCollision; split <;> rfl
@[simp] theorem State.setCollision_dt (hit : Bool) : (s.setCollision hit).dt = s.dt := by unfold State.setCollision; split <;> rfl
@[simp] theorem State.setCollision_st (hit : Bool) : (s.setCollision hit).st = s.st := by unfold State.setCollision; split <;> rfl
@[simp] theorem State.setCollision_key (hit : Bool) : (s.setCollision hit).key = s.key := by unfold State.setCollision; split <;> rfl
@[simp] theorem State.setCollision_stop (hit : Bool) : (s.setCollision hit).stop = s.stop := by unfold State.setCollision; split <;> rfl
@[simp] theorem State.setCollision_es (hit : Bool) : (s.setCollision hit).es = s.es := by unfold State.setCollision; split <;> rfl
@[simp] theorem State.setCollision_fr (hit : Bool) : (s.setCollision hit).fr = s.fr := by unfold State.setCollision; split <;> rfl
@[simp] theorem State.setCollision_fb (hit : Bool) : (s.setCollision hit).fb = s.fb := by unfold State.setCollision; split <;> rfl
@[simp] theorem State.setCollision_mem (hit : Bool) : (s.setCollision hit).mem = s.mem := by unfold State.setCollision; split <;> rfl
@[simp] theorem State.setCollision_started (hit : Bool) : (s.setCollision hit).started = s.started := by unfold State.setCollision; split <;> rfl
@[simp] theorem State.setCollision_agenda (hit : Bool) : (s.setCollision hit).agenda = s.agenda := by unfold State.setCollision; split <;> rfl
@[simp] theorem State.setCollision_rndIn (hit : Bool) : (s.setCollision hit).rndIn = s.rndIn := by unfold State.setCollision; split <;> rfl
@[simp] theorem State.setCollision_rndUsed (hit : Bool) : (s.setCollision hit).rndUsed = s.rndUsed := by unfold State.setCollision; split <;> rfl
@[simp] theorem State.setCollision_readByte (hit : Bool) (ad : Nat) : (s.setCollision hit).readByte ad = s.readByte ad := by simp [State.readByte]
@[simp] theorem State.setCollision_fetch (hit : Bool) : (s.setCollision hit).fetch = s.fetch := by simp [State.fetch]
@[simp] theorem State.setCollision_slot (hit : Bool) (ix : Nat) : (s.setCollision hit).slot ix = s.slot ix := by simp [State.slot]

/-! ### `State.advanceI` -/
@[simp] theorem State.advanceI_cfg (x : Reg) : (s.advanceI x).cfg = s.cfg := by unfold State.advanceI; split <;> rfl
@[simp] theorem State.advanceI_v (x : Reg) : (s.advanceI x).v = s.v := by unfold State.advanceI; split <;> rfl
@[simp] theorem State.advanceI_pc (x : Reg) : (s.advanceI x).pc = s.pc := by unfold State.advanceI; split <;> rfl
@[simp] theorem State.advanceI_sp (x : Reg) : (s.advanceI x).sp = s.sp := by unfold State.advanceI; split <;> rfl
@[simp] theorem State.advanceI_stack (x : Reg) : (s.advanceI x).stack = s.stack := by unfold State.advanceI; split <;> rfl
@[simp] theorem State.advanceI_dt (x : Reg) : (s.advanceI x).dt = s.dt := by unfold State.advanceI; split <;> rfl
@[simp] theorem State.advanceI_st (x : Reg) : (s.advanceI x).st = s.st := by unfold State.advanceI; split <;> rfl
@[simp] theorem State.advanceI_key (x : Reg) : (s.advanceI x).key = s.key := by unfold State.advanceI; split <;> rfl
@[simp] theorem State.advanceI_stop (x : Reg) : (s.advanceI x).stop = s.stop := by unfold State.advanceI; split <;> rfl
@[simp] theorem State.advanceI_es (x : Reg) : (s.advanceI x).es = s.es := by unfold State.advanceI; split <;> rfl
@[simp] theorem State.advanceI_fr (x : Reg) : (s.advanceI x).fr = s.fr := by unfold State.advanceI; split <;> rfl
@[simp] theorem State.advanceI_fb (x : Reg) : (s.advanceI x).fb = s.fb := by unfold State.advanceI; split <;> rfl
@[simp] theorem State.advanceI_mem (x : Reg) : (s.advanceI x).mem = s.mem := by unfold State.advanceI; split <;> rfl
@[simp] theorem State.advanceI_started (x : Reg) : (s.advanceI x).started = s.started := by unfold State.advanceI; split <;> rfl
@[simp] theorem State.advanceI_agenda (x : Reg) : (s.advanceI x).agenda = s.agenda := by unfold State.advanceI; split <;> rfl
@[simp] theorem State.advanceI_rndIn (x : Reg) : (s.advanceI x).rndIn = s.rndIn := by unfold State.advanceI; split <;> rfl
@[simp] theorem State.advanceI_rndUsed (x : Reg) : (s.advanceI x).rndUsed = s.rndUsed := by unfold State.advanceI; split <;> rfl
@[simp] theorem State.advanceI_reg (x : Reg) (r : Reg) : (s.advanceI x).reg r = s.reg r := by simp [State.reg]
@[simp] theorem State.advanceI_readByte (x : Reg) (ad : Nat) : (s.advanceI x).readByte ad = s.readByte ad := by simp [State.readByte]
@[simp] theorem State.advanceI_fetch (x : Reg) : (s.advanceI x).fetch = s.fetch := by simp [State.fetch]
@[simp] theorem State.advanceI_slot (x : Reg) (ix : Nat) : (s.advanceI x).slot ix = s.slot ix := by simp [State.slot]

/-! ### `State.rndTaken` -/
@[simp] theorem State.rndTaken_cfg : (s.rndTaken).cfg = s.cfg := by unfold State.rndTaken; split <;> rfl
@[simp] theorem State.rndTaken_v : (s.rndTaken).v = s.v := by unfold State.rndTaken; split <;> rfl
@[simp] theorem State.rndTaken_i : (s.rndTaken).i = s.i := by unfold State.rndTaken; split <;> rfl
@[simp] theorem State.rndTaken_pc : (s.rndTaken).pc = s.pc := by unfold State.rndTaken; split <;> rfl
@[simp] theorem State.rndTaken_sp : (s.rndTaken).sp = s.sp := by unfold State.rndTaken; split <;> rfl
@[simp] theorem State.rndTaken_stack : (s.rndTaken).stack = s.stack := by unfold State.rndTaken; split <;> rfl
@[simp] theorem State.rndTaken_dt : (s.rndTaken).dt = s.dt := by unfold State.rndTaken; split <;> rfl
@[simp] theorem State.rndTaken_st : (s.rndTaken).st = s.st := by unfold State.rndTaken; split <;> rfl
@[simp] theorem State.rndTaken_key : (s.rndTaken).key = s.key := by unfold State.rndTaken; split <;> rfl
@[simp] theorem State.rndTaken_stop : (s.rndTaken).stop = s.stop := by unfold State.rndTaken; split <;> rfl
@[simp] theorem State.rndTaken_es : (s.rndTaken).es = s.es := by unfold State.rndTaken; split <;> rfl
@[simp] theorem State.rndTaken_fr : (s.rndTaken).fr = s.fr := by unfold State.rndTaken; split <;> rfl
@[simp] theorem State.rndTaken_fb : (s.rndTaken).fb = s.fb := by unfold State.rndTaken; split <;> rfl
@[simp] theorem State.rndTaken_mem : (s.rndTaken).mem = s.mem := by unfold State.rndTaken; split <;> rfl
@[simp] theorem State.rndTaken_started : (s.rndTaken).started = s.started := by unfold State.rndTaken; split <;> rfl
@[simp] theorem State.rndTaken_agenda : (s.rndTaken).agenda = s.agenda := by unfold State.rndTaken; split <;> rfl
@[simp] theorem State.rndTaken_reg (r : Reg) : (s.rndTaken).reg r = s.reg r := by simp [State.reg]
@[simp] theorem State.rndTaken_readByte (ad : Nat) : (s.rndTaken).readByte ad = s.readByte ad := by simp [State.readByte]
@[simp] theorem State.rndTaken_fetch : (s.rndTaken).fetch = s.fetch := by simp [State.fetch]
@[simp] theorem State.rndTaken_slot (ix : Nat) : (s.rndTaken).slot ix = s.slot ix := by simp [State.slot]

/-! ### `State.writeByte` -/
@[simp] theorem State.writeByte_cfg (a : Nat) (b : Byte) : (s.writeByte a b).cfg = s.cfg := by unfold State.writeByte; split <;> rfl
@[simp] theorem State.writeByte_v (a : Nat) (b : Byte) : (s.writeByte a b).v = s.v := by unfold State.writeByte; split <;> rfl
@[simp] theorem State.writeByte_i (a : Nat) (b : Byte) : (s.writeByte a b).i = s.i := by unfold State.writeByte; split <;> rfl
@[simp] theorem State.writeByte_pc (a : Nat) (b : Byte) : (s.writeByte a b).pc = s.pc := by unfold State.writeByte; split <;> rfl
@[simp] theorem State.writeByte_sp (a : Nat) (b : Byte) : (s.writeByte a b).sp = s.sp := by unfold State.writeByte; split <;> rfl
@[simp] theorem State.writeByte_stack (a : Nat) (b : Byte) : (s.writeByte a b).stack = s.stack := by unfold State.writeByte; split <;> rfl
@[simp] theorem State.writeByte_dt (a : Nat) (b : Byte) : (s.writeByte a b).dt = s.dt := by unfold State.writeByte; split <;> rfl
@[simp] theorem State.writeByte_st (a : Nat) (b : Byte) : (s.writeByte a b).st = s.st := by unfold State.writeByte; split <;> rfl
@[simp] theorem State.writeByte_key (a : Nat) (b : Byte) : (s.writeByte a b).key = s.key := by unfold State.writeByte; split <;> rfl
@[simp] theorem State.writeByte_stop (a : Nat) (b : Byte) : (s.writeByte a b).stop = s.stop := by unfold State.writeByte; split <;> rfl
@[simp] theorem State.writeByte_es (a : Nat) (b : Byte) : (s.writeByte a b).es = s.es := by unfold State.writeByte; split <;> rfl
@[simp] theorem State.writeByte_fr (a : Nat) (b : Byte) : (s.writeByte a b).fr = s.fr := by unfold State.writeByte; split <;> rfl
@[simp] theorem State.writeByte_fb (a : Nat) (b : Byte) : (s.writeByte a b).fb = s.fb := by unfold State.writeByte; split <;> rfl
@[simp] theorem State.writeByte_started (a : Nat) (b : Byte) : (s.writeByte a b).started = s.started := by unfold State.writeByte; split <;> rfl
@[simp] theorem State.writeByte_agenda (a : Nat) (b : Byte) : (s.writeByte a b).agenda = s.agenda := by unfold State.writeByte; split <;> rfl
@[simp] theorem State.writeByte_rndIn (a : Nat) (b : Byte) : (s.writeByte a b).rndIn = s.rndIn := by unfold State.writeByte; split <;> rfl
@[simp] theorem State.writeByte_rndUsed (a : Nat) (b : Byte) : (s.writeByte a b).rndUsed = s.rndUsed := by unfold State.writeByte; split <;> rfl
@[simp] theorem State.writeByte_reg (a : Nat) (b : Byte) (r : Reg) : (s.writeByte a b).reg r = s.reg r := by simp [State.reg]
@[simp] theorem State.writeByte_slot (a : Nat) (b : Byte) (ix : Nat) : (s.writeByte a b).slot ix = s.slot ix := by simp [State.slot]

/-! ### `State.halt` -/
@[simp] theorem State.halt_cfg : (s.halt).cfg = s.cfg := rfl
@[simp] theorem State.halt_v : (s.halt).v = s.v := rfl
@[simp] theorem State.halt_i : (s.halt).i = s.i := rfl
@[simp] theorem State.halt_pc : (s.halt).pc = s.pc := rfl
@[simp] theorem State.halt_sp : (s.halt).sp = s.sp := rfl
@[simp] theorem State.halt_stack : (s.halt).stack = s.stack := rfl
@[simp] theorem State.halt_dt : (s.halt).dt = s.dt := rfl
@[simp] theorem State.halt_st : (s.halt).st = s.st := rfl
@[simp] theorem State.halt_key : (s.halt).key = s.key := rfl
@[simp] theorem State.halt_stop : (s.halt).stop = s.stop := rfl
@[simp] theorem State.halt_es : (s.halt).es = .stopped := rfl
@[simp] theorem State.halt_fr : (s.halt).fr = s.fr := rfl
@[simp] theorem State.halt_fb : (s.halt).fb = s.fb := rfl
@[simp] theorem State.halt_mem : (s.halt).mem = s.mem := rfl
@[simp] theorem State.halt_started : (s.halt).started = s.started := rfl
@[simp] theorem State.halt_agenda : (s.halt).agenda = s.agenda := rfl
@[simp] theorem State.halt_rndIn : (s.halt).rndIn = s.rndIn := rfl
@[simp] theorem State.halt_rndUsed : (s.halt).rndUsed = s.rndUsed := rfl
@[simp] theorem State.halt_reg (r : Reg) : (s.halt).reg r = s.reg r := by simp [State.reg]
@[simp] theorem State.halt_readByte (ad : Nat) : (s.halt).readByte ad = s.readByte ad := by simp [State.readByte]
@[simp] theorem State.halt_fetch : (s.halt).fetch = s.fetch := by simp [State.fetch]
@[simp] theorem State.halt_slot (ix : Nat) : (s.halt).slot ix = s.slot ix := by simp [State.slot]

/-! ### `State.setKey` -/
@[simp] theorem State.setKey_cfg (k : Option Key) : (s.setKey k).cfg = s.cfg := rfl
@[simp] theorem State.setKey_v (k : Option Key) : (s.setKey k).v = s.v := rfl
@[simp] theorem State.setKey_i (k : Option Key) : (s.setKey k).i = s.i := rfl
@[simp] theorem State.setKey_pc (k : Option Key) : (s.setKey k).pc = s.pc := rfl
@[simp] theorem State.setKey_sp (k : Option Key) : (s.setKey k).sp = s.sp := rfl
@[simp] theorem State.setKey_stack (k : Option Key) : (s.setKey k).stack = s.stack := rfl
@[simp] theorem State.setKey_dt (k : Option Key) : (s.setKey k).dt = s.dt := rfl
@[simp] theorem State.setKey_st (k : Option Key) : (s.setKey k).st = s.st := rfl
@[simp] theorem State.setKey_key (k : Option Key) : (s.setKey k).key = k := rfl
@[simp] theorem State.setKey_stop (k : Option Key) : (s.setKey k).stop = s.stop := rfl
@[simp] theorem State.setKey_es (k : Option Key) : (s.setKey k).es = s.es := rfl
@[simp] theorem State.setKey_fr (k : Option Key) : (s.setKey k).fr = s.fr := rfl
@[simp] theorem State.setKey_fb (k : Option Key) : (s.setKey k).fb = s.fb := rfl
@[simp] theorem State.setKey_mem (k : Option Key) : (s.setKey k).mem = s.mem := rfl
@[simp] theorem State.setKey_started (k : Option Key) : (s.setKey k).started = s.started := rfl
@[simp] theorem State.setKey_agenda (k : Option Key) : (s.setKey k).agenda = s.agenda := rfl
@[simp] theorem State.setKey_rndIn (k : Option Key) : (s.setKey k).rndIn = s.rndIn := rfl
@[simp] theorem State.setKey_rndUsed (k : Option Key) : (s.setKey k).rndUsed = s.rndUsed := rfl
@[simp] theorem State.setKey_reg (k : Option Key) (r : Reg) : (s.setKey k).reg r = s.reg r := by simp [State.reg]
@[simp] theorem State.setKey_readByte (k : Option Key) (ad : Nat) : (s.setKey k).readByte ad = s.readByte ad := by simp [State.readByte]
@[simp] theorem State.setKey_fetch (k : Option Key) : (s.setKey k).fetch = s.fetch := by simp [State.fetch]
@[simp] theorem State.setKey_slot (k : Option Key) (ix : Nat) : (s.setKey k).slot ix = s.slot ix := by simp [State.slot]

/-! ### `State.setStop` -/
@[simp] theorem State.setStop_cfg : (s.setStop).cfg = s.cfg := rfl
@[simp] theorem State.setStop_v : (s.setStop).v = s.v := rfl
@[simp] theorem State.setStop_i : (s.setStop).i = s.i := rfl
@[simp] theorem State.setStop_pc : (s.setStop).pc = s.pc := rfl
@[simp] theorem State.setStop_sp : (s.setStop).sp = s.sp := rfl
@[simp] theorem State.setStop_stack : (s.setStop).stack = s.stack := rfl
@[simp] theorem State.setStop_dt : (s.setStop).dt = s.dt := rfl
@[simp] theorem State.setStop_st : (s.setStop).st = s.st := rfl
@[simp] theorem State.setStop_key : (s.setStop).key = s.key := rfl
@[simp] theorem State.setStop_stop : (s.setStop).stop = true := rfl
@[simp] theorem State.setStop_es : (s.setStop).es = s.es := rfl
@[simp] theorem State.setStop_fr : (s.setStop).fr = s.fr := rfl
@[simp] theorem State.setStop_fb : (s.setStop).fb = s.fb := rfl
@[simp] theorem State.setStop_mem : (s.setStop).mem = s.mem := rfl
@[simp] theorem State.setStop_started : (s.setStop).started = s.started := rfl
@[simp] theorem State.setStop_agenda : (s.setStop).agenda = s.agenda := rfl
@[simp] theorem State.setStop_rndIn : (s.setStop).rndIn = s.rndIn := rfl
@[simp] theorem State.setStop_rndUsed : (s.setStop).rndUsed = s.rndUsed := rfl
@[simp] theorem State.setStop_reg (r : Reg) : (s.setStop).reg r = s.reg r := by simp [State.reg]
@[simp] theorem State.setStop_readByte (ad : Nat) : (s.setStop).readByte ad = s.readByte ad := by simp [State.readByte]
@[simp] theorem State.setStop_fetch : (s.setStop).fetch = s.fetch := by simp [State.fetch]
@[simp] theorem State.setStop_slot (ix : Nat) : (s.setStop).slot ix = s.slot ix := by simp [State.slot]

/-! ### `State.setAgenda` -/
@[simp] theorem State.setAgenda_cfg (as : List Action) : (s.setAgenda as).cfg = s.cfg := rfl
@[simp] theorem State.setAgenda_v (as : List Action) : (s.setAgenda as).v = s.v := rfl
@[simp] theorem State.setAgenda_i (as : List Action) : (s.setAgenda as).i = s.i := rfl
@[simp] theorem State.setAgenda_pc (as : List Action) : (s.setAgenda as).pc = s.pc := rfl
@[simp] theorem State.setAgenda_sp (as : List Action) : (s.setAgenda as).sp = s.sp := rfl
@[simp] theorem State.setAgenda_stack (as : List Action) : (s.setAgenda as).stack = s.stack := rfl
@[simp] theorem State.setAgenda_dt (as : List Action) : (s.setAgenda as).dt = s.dt := rfl
@[simp] theorem State.setAgenda_st (as : List Action) : (s.setAgenda as).st = s.st := rfl
@[simp] theorem State.setAgenda_key (as : List Action) : (s.setAgenda as).key = s.key := rfl
@[simp] theorem State.setAgenda_stop (as : List Action) : (s.setAgenda as).stop = s.stop := rfl
@[simp] theorem State.setAgenda_es (as : List Action) : (s.setAgenda as).es = s.es := rfl
@[simp] theorem State.setAgenda_fr (as : List Action) : (s.setAgenda as).fr = s.fr := rfl
@[simp] theorem State.setAgenda_fb (as : List Action) : (s.setAgenda as).fb = s.fb := rfl
@[simp] theorem State.setAgenda_mem (as : List Action) : (s.setAgenda as).mem = s.mem := rfl
@[simp] theorem State.setAgenda_started (as : List Action) : (s.setAgenda as).started = s.started := rfl
@[simp] theorem State.setAgenda_agenda (as : List Action) : (s.setAgenda as).agenda = as := rfl
@[simp] theorem State.setAgenda_rndIn (as : List Action) : (s.setAgenda as).rndIn = s.rndIn := rfl
@[simp] theorem State.setAgenda_rndUsed (as : List Action) : (s.setAgenda as).rndUsed = s.rndUsed := rfl
@[simp] theorem State.setAgenda_reg (as : List Action) (r : Reg) : (s.setAgenda as).reg r = s.reg r := by simp [State.reg]
@[simp] theorem State.setAgenda_readByte (as : List Action) (ad : Nat) : (s.setAgenda as).readByte ad = s.readByte ad := by simp [State.readByte]
@[simp] theorem State.setAgenda_fetch (as : List Action) : (s.setAgenda as).fetch = s.fetch := by simp [State.fetch]
@[simp] theorem State.setAgenda_slot (as : List Action) (ix : Nat) : (s.setAgenda as).slot ix = s.slot ix := by simp [State.slot]

/-! ### `State.revive` -/
@[simp] theorem State.revive_cfg : (s.revive).cfg = s.cfg := by unfold State.revive; split <;> rfl
@[simp] theorem State.revive_v : (s.revive).v = s.v := by unfold State.revive; split <;> rfl
@[simp] theorem State.revive_i : (s.revive).i = s.i := by unfold State.revive; split <;> rfl
@[simp] theorem State.revive_pc : (s.revive).pc = s.pc := by unfold State.revive; split <;> rfl
@[simp] theorem State.revive_sp : (s.revive).sp = s.sp := by unfold State.revive; split <;> rfl
@[simp] theorem State.revive_stack : (s.revive).stack = s.stack := by unfold State.revive; split <;> rfl
@[simp] theorem State.revive_dt : (s.revive).dt = s.dt := by unfold State.revive; split <;> rfl
@[simp] theorem State.revive_st : (s.revive).st = s.st := by unfold State.revive; split <;> rfl
@[simp] theorem State.revive_key : (s.revive).key = s.key := by unfold State.revive; split <;> rfl
@[simp] theorem State.revive_stop : (s.revive).stop = s.stop := by unfold State.revive; split <;> rfl
@[simp] theorem State.revive_fb : (s.revive).fb = s.fb := by unfold State.revive; split <;> rfl
@[simp] theorem State.revive_mem : (s.revive).mem = s.mem := by unfold State.revive; split <;> rfl
@[simp] theorem State.revive_started : (s.revive).started = s.started := by unfold State.revive; split <;> rfl
@[simp] theorem State.revive_agenda : (s.revive).agenda = s.agenda := by unfold State.revive; split <;> rfl
@[simp] theorem State.revive_rndIn : (s.revive).rndIn = s.rndIn := by unfold State.revive; split <;> rfl
@[simp] theorem State.revive_rndUsed : (s.revive).rndUsed = s.rndUsed := by unfold State.revive; split <;> rfl
@[simp] theorem State.revive_reg (r : Reg) : (s.revive).reg r = s.reg r := by simp [State.reg]
@[simp] theorem State.revive_readByte (ad : Nat) : (s.revive).readByte ad = s.readByte ad := by simp [State.readByte]
@[simp] theorem State.revive_fetch : (s.revive).fetch = s.fetch := by simp [State.fetch]
@[simp] theorem State.revive_slot (ix : Nat) : (s.revive).slot ix = s.slot ix := by simp [State.slot]

/-! ### `State.atFetchable` -/
@[simp] theorem State.atFetchable_cfg : (s.atFetchable).cfg = s.cfg := by unfold State.atFetchable; split <;> rfl
@[simp] theorem State.atFetchable_v : (s.atFetchable).v = s.v := by unfold State.atFetchable; split <;> rfl
@[simp] theorem State.atFetchable_i : (s.atFetchable).i = s.i := by unfold State.atFetchable; split <;> rfl
@[simp] theorem State.atFetchable_sp : (s.atFetchable).sp = s.sp := by unfold State.atFetchable; split <;> rfl
@[simp] theorem State.atFetchable_stack : (s.atFetchable).stack = s.stack := by unfold State.atFetchable; split <;> rfl
@[simp] theorem State.atFetchable_dt : (s.atFetchable).dt = s.dt := by unfold State.atFetchable; split <;> rfl
@[simp] theorem State.atFetchable_st : (s.atFetchable).st = s.st := by unfold State.atFetchable; split <;> rfl
@[simp] theorem State.atFetchable_key : (s.atFetchable).key = s.key := by unfold State.atFetchable; split <;> rfl
@[simp] theorem State.atFetchable_stop : (s.atFetchable).stop = s.stop := by unfold State.atFetchable; split <;> rfl
@[simp] theorem State.atFetchable_es : (s.atFetchable).es = s.es := by unfold State.atFetchable; split <;> rfl
@[simp] theorem State.atFetchable_fr : (s.atFetchable).fr = s.fr := by unfold State.atFetchable; split <;> rfl
@[simp] theorem State.atFetchable_fb : (s.atFetchable).fb = s.fb := by unfold State.atFetchable; split <;> rfl
@[simp] theorem State.atFetchable_mem : (s.atFetchable).mem = s.mem := by unfold State.atFetchable; split <;> rfl
@[simp] theorem State.atFetchable_started : (s.atFetchable).started = s.started := by unfold State.atFetchable; split <;> rfl
@[simp] theorem State.atFetchable_agenda : (s.atFetchable).agenda = s.agenda := by unfold State.atFetchable; split <;> rfl
@[simp] theorem State.atFetchable_rndIn : (s.atFetchable).rndIn = s.rndIn := by unfold State.atFetchable; split <;> rfl
@[simp] theorem State.atFetchable_rndUsed : (s.atFetchable).rndUsed = s.rndUsed := by unfold State.atFetchable; split <;> rfl
@[simp] theorem State.atFetchable_reg (r : Reg) : (s.atFetchable).reg r = s.reg r := by simp [State.reg]
@[simp] theorem State.atFetchable_readByte (ad : Nat) : (s.atFetchable).readByte ad = s.readByte ad := by simp [State.readByte]
@[simp] theorem State.atFetchable_slot (ix : Nat) : (s.atFetchable).slot ix = s.slot ix := by simp [State.slot]

/-! ### `State.unhindered` -/
@[simp] theorem State.unhindered_cfg : (s.unhindered).cfg = s.cfg := rfl
@[simp] theorem State.unhindered_v : (s.unhindered).v = s.v := rfl
@[simp] theorem State.unhindered_i : (s.unhindered).i = s.i := rfl
@[simp] theorem State.unhindered_pc : (s.unhindered).pc = s.pc := rfl
@[simp] theorem State.unhindered_sp : (s.unhindered).sp = s.sp := rfl
@[simp] theorem State.unhindered_stack : (s.unhindered).stack = s.stack := rfl
@[simp] theorem State.unhindered_dt : (s.unhindered).dt = s.dt := rfl
@[simp] theorem State.unhindered_st : (s.unhindered).st = s.st := rfl
@[simp] theorem State.unhindered_key : (s.unhindered).key = s.key := rfl
@[simp] theorem State.unhindered_stop : (s.unhindered).stop = false := rfl
@[simp] theorem State.unhindered_es : (s.unhindered).es = s.es := rfl
@[simp] theorem State.unhindered_fr : (s.unhindered).fr = s.fr := rfl
@[simp] theorem State.unhindered_fb : (s.unhindered).fb = s.fb := rfl
@[simp] theorem State.unhindered_mem : (s.unhindered).mem = s.mem := rfl
@[simp] theorem State.unhindered_started : (s.unhindered).started = s.started := rfl
@[simp] theorem State.unhindered_agenda : (s.unhindered).agenda = [] := rfl
@[simp] theorem State.unhindered_rndIn : (s.unhindered).rndIn = s.rndIn := rfl
@[simp] theorem State.unhindered_rndUsed : (s.unhindered).rndUsed = s.rndUsed := rfl
@[simp] theorem State.unhindered_reg (r : Reg) : (s.unhindered).reg r = s.reg r := by simp [State.reg]
@[simp] theorem State.unhindered_readByte (ad : Nat) : (s.unhindered).readByte ad = s.readByte ad := by simp [State.readByte]
@[simp] theorem State.unhindered_fetch : (s.unhindered).fetch = s.fetch := by simp [State.fetch]
@[simp] theorem State.unhindered_slot (ix : Nat) : (s.unhindered).slot ix = s.slot ix := by simp [State.slot]

/-! ### `State.markStarted` -/
@[simp] theorem State.markStarted_cfg : (s.markStarted).cfg = s.cfg := rfl
@[simp] theorem State.markStarted_v : (s.markStarted).v = s.v := rfl
@[simp] theorem State.markStarted_i : (s.markStarted).i = s.i := rfl
@[simp] theorem State.markStarted_pc : (s.markStarted).pc = s.pc := rfl
@[simp] theorem State.markStarted_sp : (s.markStarted).sp = s.sp := rfl
@[simp] theorem State.markStarted_stack : (s.markStarted).stack = s.stack := rfl
@[simp] theorem State.markStarted_dt : (s.markStarted).dt = s.dt := rfl
@[simp] theorem State.markStarted_st : (s.markStarted).st = s.st := rfl
@[simp] theorem State.markStarted_key : (s.markStarted).key = s.key := rfl
@[simp] theorem State.markStarted_stop : (s.markStarted).stop = s.stop := rfl
@[simp] theorem State.markStarted_es : (s.markStarted).es = s.es := rfl
@[simp] theorem State.markStarted_fr : (s.markStarted).fr = s.fr := rfl
@[simp] theorem State.markStarted_fb : (s.markStarted).fb = s.fb := rfl
@[simp] theorem State.markStarted_mem : (s.markStarted).mem = s.mem := rfl
@[simp] theorem State.markStarted_started : (s.markStarted).started = true := rfl
@[simp] theorem State.markStarted_agenda : (s.markStarted).agenda = s.agenda := rfl
@[simp] theorem State.markStarted_rndIn : (s.markStarted).rndIn = s.rndIn := rfl
@[simp] theorem State.markStarted_rndUsed : (s.markStarted).rndUsed = s.rndUsed := rfl
@[simp] theorem State.markStarted_reg (r : Reg) : (s.markStarted).reg r = s.reg r := by simp [State.reg]
@[simp] theorem State.markStarted_readByte (ad : Nat) : (s.markStarted).readByte ad = s.readByte ad := by simp [State.readByte]
@[simp] theorem State.markStarted_fetch : (s.markStarted).fetch = s.fetch := by simp [State.fetch]
@[simp] theorem State.markStarted_slot (ix : Nat) : (s.markStarted).slot ix = s.slot ix := by simp [State.slot]

end Sys2Proof.Machine
end

