-- ==== Sys2Proof/Laws/Registers.lean ====
section
/-! SUPPORT. What the register file reads as after each operation that writes it. -/

namespace Sys2Proof.Machine

variable (s : State)

theorem State.reg_eq_of_v_eq {s t : State} (h : t.v = s.v) (r : Reg) : t.reg r = s.reg r := by
  simp [State.reg, h]

theorem State.reg_setReg (x : Reg) (b : Byte) (r : Reg) :
    (s.setReg x b).reg r = if r = x then b else s.reg r := by
  obtain ⟨x, hx⟩ := x
  obtain ⟨r, hr⟩ := r
  simp only [State.reg, State.setReg, Vector.get_eq_getElem, Vector.getElem_set, Fin.mk.injEq]
  by_cases h : x = r
  · simp [h]
  · simp [h, Ne.symm h]

@[simp] theorem State.reg_setReg_same (x : Reg) (b : Byte) : (s.setReg x b).reg x = b := by
  simp [State.reg_setReg]

theorem State.reg_setReg_other {x r : Reg} (b : Byte) (h : r ≠ x) : (s.setReg x b).reg r = s.reg r := by
  simp [State.reg_setReg, h]

theorem State.reg_setRegsUpTo (x : Reg) (f : Nat → Byte) (r : Reg) :
    (s.setRegsUpTo x f).reg r = if r ≤ x then f r else s.reg r := by
  simp [State.reg, State.setRegsUpTo, Vector.get_eq_getElem]

/-- `writeback` below VF: the result in its destination, the flag in VF, in either order. -/
theorem State.reg_writeback_of_ne {x : Reg} (hx : x ≠ VF) (r : Byte) (f : Bool) (k : Reg) :
    (s.writeback x r f).reg k = if k = x then r else if k = VF then flagByte f else s.reg k := by
  unfold State.writeback
  split <;> simp only [State.reg_setReg]
  by_cases h : k = x
  · subst h
    simp [hx]
  · simp [h]

/-- `writeback` to VF: the flag under FlagLast, the result under ResultLast (R111). -/
theorem State.reg_writeback_vf (r : Byte) (f : Bool) (k : Reg) :
    (s.writeback VF r f).reg k =
      if k = VF then (match s.cfg.vfDestOrder with | .flagLast => flagByte f | .resultLast => r) else s.reg k := by
  cases h : s.cfg.vfDestOrder <;> by_cases hk : k = VF <;> simp [State.writeback, h, State.reg_setReg, hk]

theorem State.reg_writeback_frame {x k : Reg} (r : Byte) (f : Bool) (hx : k ≠ x) (hf : k ≠ VF) :
    (s.writeback x r f).reg k = s.reg k := by
  unfold State.writeback
  split <;> simp [State.reg_setReg, hx, hf]

theorem State.reg_setCollision (hit : Bool) (k : Reg) :
    (s.setCollision hit).reg k =
      match s.cfg.drawVf with
      | .unchanged => s.reg k
      | .collision => if k = VF then flagByte hit else s.reg k := by
  cases h : s.cfg.drawVf <;> simp [State.setCollision, h, State.reg_setReg]

theorem State.regsUpTo_length (x : Reg) : (s.regsUpTo x).length = x.val + 1 := by
  have := x.isLt
  simp [State.regsUpTo]

theorem State.regsUpTo_getElem (x k : Reg) (h : k ≤ x) :
    (s.regsUpTo x)[k.val]'(by have := s.regsUpTo_length x; have : k.val ≤ x.val := h; omega) = s.reg k := by
  simp [State.regsUpTo, State.reg, Vector.get_eq_getElem]

theorem flagByte_toNat (f : Bool) : (flagByte f).toNat = if f then 1 else 0 := by cases f <;> rfl

/-- FX55 and FX65 move I only under `Advance` (R136). -/
theorem State.advanceI_i (x : Reg) :
    (s.advanceI x).i = match s.cfg.blockIMode with
      | .unchanged => s.i
      | .advance => BitVec.ofNat 16 (s.i.toNat + x.val + 1) := by
  cases h : s.cfg.blockIMode <;> simp [State.advanceI, h]

/-- A push below the capacity (R96). -/
theorem State.push_of_lt (w : Word) (h : s.sp.val < 16) :
    s.push w = { s with stack := s.stack.set s.sp.val w, sp := ⟨s.sp.val + 1, by omega⟩ } := by
  simp [State.push, h]

theorem State.push_sp (w : Word) (h : s.sp.val < 16) : (s.push w).sp.val = s.sp.val + 1 := by
  simp [State.push, h]

/-- After a push the new top slot holds the word and every slot below it what it held (R26, R96). -/
theorem State.push_slot (w : Word) (h : s.sp.val < 16) {k : Nat} (hk : 1 ≤ k) :
    (s.push w).slot k = if k = s.sp.val + 1 then w else s.slot k := by
  rw [State.push_of_lt s w h]
  simp only [State.slot]
  rw [Vector.getElem?_set]
  by_cases e : k = s.sp.val + 1
  · subst e
    simp
  · have : s.sp.val ≠ k - 1 := by omega
    simp [this, e]

theorem State.pop_sp : (s.pop).sp.val = s.sp.val - 1 := rfl

end Sys2Proof.Machine
end

