-- ==== Sys2Proof/Laws/Memory.lean ====
section
/-! SUPPORT. The laws of memory: read after write, and that every operation keeps the canonical form. -/

namespace Sys2Proof.Machine

/-! ### The list of cells -/

theorem cellsFind_cellsCons (k a : Nat) (b : Option Byte) (m : Memory) :
    cellsFind k (cellsCons a b m) = if k = a then b.orElse (fun _ => cellsFind k m) else cellsFind k m := by
  cases b <;> simp [cellsCons, cellsFind, eq_comm]

/-- Addresses of a list all lie above `a`: it lists nothing at `a`. -/
theorem cellsFind_none_of_lt {a : Nat} {m : Memory} (h : ∀ p ∈ m, a < p.1) : cellsFind a m = none := by
  induction m with
  | nil => rfl
  | cons p rest ih =>
    have hp : p.1 ≠ a := Nat.ne_of_gt (h p (by simp))
    simp only [cellsFind, hp, if_false]
    exact ih fun q hq => h q (by simp [hq])

theorem cellsFind_cellsPut (k a : Nat) (b : Option Byte) {m : Memory} (hm : m.Pairwise (fun p q => p.1 < q.1)) :
    cellsFind k (cellsPut a b m) = if k = a then b else cellsFind k m := by
  induction m with
  | nil => cases b <;> simp [cellsPut, cellsCons, cellsFind, eq_comm]
  | cons p rest ih =>
    obtain ⟨q, x⟩ := p
    obtain ⟨hq, hrest⟩ := List.pairwise_cons.1 hm
    unfold cellsPut
    split
    · rename_i hlt
      by_cases hk : q = k
      · have : k ≠ a := by omega
        simp [cellsFind, hk, this]
      · simp [cellsFind, hk, ih hrest]
    · rename_i hge
      split
      · rename_i heq
        subst heq
        have hnone : cellsFind q rest = none := cellsFind_none_of_lt hq
        rw [cellsFind_cellsCons]
        by_cases hk : k = q
        · subst hk
          cases b <;> simp [hnone]
        · simp [hk, cellsFind, Ne.symm hk]
      · rename_i hne
        have hnone : cellsFind a ((q, x) :: rest) = none := by
          refine cellsFind_none_of_lt fun p hp => ?_
          rcases List.mem_cons.1 hp with rfl | hp
          · simp at hge hne ⊢; omega
          · have := hq p hp
            simp at hge hne this ⊢; omega
        rw [cellsFind_cellsCons]
        by_cases hk : k = a
        · subst hk
          cases b <;> simp [hnone]
        · simp [hk]

theorem cellsPut_mem {a : Nat} {b : Option Byte} {m : Memory} {p : Host.Cell} (h : p ∈ cellsPut a b m) :
    p ∈ m ∨ (p.1 = a ∧ b = some p.2) := by
  induction m with
  | nil => cases b <;> simp_all [cellsPut, cellsCons]
  | cons q rest ih =>
    obtain ⟨k, x⟩ := q
    unfold cellsPut at h
    split at h
    · rcases List.mem_cons.1 h with rfl | h
      · simp
      · rcases ih h with h | h
        · simp [h]
        · exact .inr h
    · split at h <;> cases b <;> simp only [cellsCons, List.mem_cons] at h ⊢ <;>
        first
        | (rcases h with rfl | h <;> simp_all)
        | simp_all

theorem cellsPut_sorted {a : Nat} {b : Option Byte} {m : Memory} (h : m.Pairwise (fun p q => p.1 < q.1)) :
    (cellsPut a b m).Pairwise (fun p q => p.1 < q.1) := by
  induction m with
  | nil => cases b <;> simp [cellsPut, cellsCons]
  | cons q rest ih =>
    obtain ⟨k, x⟩ := q
    obtain ⟨hq, hrest⟩ := List.pairwise_cons.1 h
    unfold cellsPut
    split
    · rename_i hlt
      refine List.pairwise_cons.2 ⟨fun p hp => ?_, ih hrest⟩
      rcases cellsPut_mem hp with hp | ⟨hp, -⟩
      · exact hq p hp
      · rw [hp]; exact hlt
    · rename_i hge
      split
      · rename_i heq
        subst heq
        cases b with
        | none => exact hrest
        | some y => exact List.pairwise_cons.2 ⟨hq, hrest⟩
      · rename_i hne
        cases b with
        | none => exact h
        | some y =>
          refine List.pairwise_cons.2 ⟨fun p hp => ?_, h⟩
          rcases List.mem_cons.1 hp with rfl | hp
          · simp at hge hne ⊢; omega
          · have := hq p hp
            simp at hge hne this ⊢; omega

/-! ### One byte -/

/-- Reset memory, which lists nothing, is in canonical form. -/
theorem resetWith_memWf (c : Config) : (State.resetWith c).memWf := by
  simp [State.memWf, State.resetWith, Memory.wf]

theorem State.memWf_of_eq {s t : State} (hc : t.cfg = s.cfg) (hm : t.mem = s.mem) (h : s.memWf) : t.memWf := by
  rw [State.memWf, hc, hm]; exact h

variable {s : State}

theorem State.writeByte_memWf (h : s.memWf) (a : Nat) (b : Byte) : (s.writeByte a b).memWf := by
  obtain ⟨hs, hp⟩ := h
  unfold State.writeByte
  split
  · rename_i ha
    refine ⟨cellsPut_sorted hs, fun p hmem => ?_⟩
    rcases cellsPut_mem hmem with hmem | ⟨hk, hb⟩
    · exact hp p hmem
    · split at hb
      · cases hb
      · rename_i hne
        cases hb
        exact ⟨hk ▸ ha, hk ▸ hne⟩
  · exact ⟨hs, hp⟩

/-- A write is read back, and every other byte reads as before. -/
theorem State.readByte_writeByte (h : s.memWf) {a : Nat} (ha : a < 4096) (b : Byte) (k : Nat) :
    (s.writeByte a b).readByte k = if k = a then b else s.readByte k := by
  simp only [State.writeByte, ha, if_true, State.readByte, cellsFind_cellsPut k a _ h.1]
  by_cases hk : k = a
  · subst hk
    by_cases hb : b = s.cfg.resetByte k <;> simp [hb]
  · simp [hk]

/-! ### Runs of bytes -/

theorem State.storeBytes_memWf (a : Nat) (bs : List Byte) (h : s.memWf) : (s.storeBytes a bs).memWf := by
  induction bs generalizing s a with
  | nil => exact h
  | cons b bs ih => exact ih _ (State.writeByte_memWf h a b)

/-- A run stored inside memory reads back, and every byte outside it reads as before. -/
theorem State.readByte_storeBytes (h : s.memWf) (a : Nat) (bs : List Byte) (ha : a + bs.length ≤ 4096) (k : Nat) :
    (s.storeBytes a bs).readByte k =
      if hk : a ≤ k ∧ k < a + bs.length then bs[k - a]'(by omega) else s.readByte k := by
  induction bs generalizing s a with
  | nil => simp [State.storeBytes]
  | cons b bs ih =>
    simp only [List.length_cons] at ha
    have hin : a < 4096 := by omega
    simp only [State.storeBytes]
    rw [ih (State.writeByte_memWf h a b) (a + 1) (by omega), State.readByte_writeByte h hin]
    by_cases h1 : k = a
    · subst h1
      simp
    · by_cases h2 : a + 1 ≤ k ∧ k < a + 1 + bs.length
      · have h3 : a ≤ k ∧ k < a + (b :: bs).length := by simp only [List.length_cons]; omega
        have h4 : k - a = (k - (a + 1)) + 1 := by omega
        rw [dif_pos h2, dif_pos h3]
        simp only [h4, List.getElem_cons_succ]
      · have h3 : ¬ (a ≤ k ∧ k < a + (b :: bs).length) := by simp only [List.length_cons]; omega
        simp only [h2, h3, h1, dif_neg, not_false_eq_true, if_false]

theorem State.storeBytes_other (f : State → α) (hf : ∀ s a b, f (State.writeByte s a b) = f s)
    (s : State) (a : Nat) (bs : List Byte) : f (s.storeBytes a bs) = f s := by
  induction bs generalizing s a with
  | nil => rfl
  | cons b bs ih => rw [State.storeBytes, ih, hf]

theorem State.readBytes_length (s : State) (a n : Nat) : (s.readBytes a n).length = n := by
  induction n generalizing a with
  | zero => rfl
  | succ n ih => simp [State.readBytes, ih]

theorem State.readBytes_getElem (s : State) (a n k : Nat) (h : k < n) :
    (s.readBytes a n)[k]'(by rw [State.readBytes_length]; exact h) = s.readByte (a + k) := by
  induction n generalizing a k with
  | zero => omega
  | succ n ih =>
    cases k with
    | zero => rfl
    | succ k =>
      simp only [State.readBytes, List.getElem_cons_succ]
      rw [ih (a + 1) k (by omega)]
      congr 1
      omega

/-! ### The fields a run of stores leaves alone -/

section
variable (s : State) (a : Nat) (bs : List Byte)
@[simp] theorem State.storeBytes_cfg : (s.storeBytes a bs).cfg = s.cfg := State.storeBytes_other (·.cfg) (by simp) s a bs
@[simp] theorem State.storeBytes_v : (s.storeBytes a bs).v = s.v := State.storeBytes_other (·.v) (by simp) s a bs
@[simp] theorem State.storeBytes_i : (s.storeBytes a bs).i = s.i := State.storeBytes_other (·.i) (by simp) s a bs
@[simp] theorem State.storeBytes_pc : (s.storeBytes a bs).pc = s.pc := State.storeBytes_other (·.pc) (by simp) s a bs
@[simp] theorem State.storeBytes_sp : (s.storeBytes a bs).sp = s.sp := State.storeBytes_other (·.sp) (by simp) s a bs
@[simp] theorem State.storeBytes_stack : (s.storeBytes a bs).stack = s.stack := State.storeBytes_other (·.stack) (by simp) s a bs
@[simp] theorem State.storeBytes_dt : (s.storeBytes a bs).dt = s.dt := State.storeBytes_other (·.dt) (by simp) s a bs
@[simp] theorem State.storeBytes_st : (s.storeBytes a bs).st = s.st := State.storeBytes_other (·.st) (by simp) s a bs
@[simp] theorem State.storeBytes_key : (s.storeBytes a bs).key = s.key := State.storeBytes_other (·.key) (by simp) s a bs
@[simp] theorem State.storeBytes_stop : (s.storeBytes a bs).stop = s.stop := State.storeBytes_other (·.stop) (by simp) s a bs
@[simp] theorem State.storeBytes_es : (s.storeBytes a bs).es = s.es := State.storeBytes_other (·.es) (by simp) s a bs
@[simp] theorem State.storeBytes_fr : (s.storeBytes a bs).fr = s.fr := State.storeBytes_other (·.fr) (by simp) s a bs
@[simp] theorem State.storeBytes_fb : (s.storeBytes a bs).fb = s.fb := State.storeBytes_other (·.fb) (by simp) s a bs
@[simp] theorem State.storeBytes_started : (s.storeBytes a bs).started = s.started := State.storeBytes_other (·.started) (by simp) s a bs
@[simp] theorem State.storeBytes_agenda : (s.storeBytes a bs).agenda = s.agenda := State.storeBytes_other (·.agenda) (by simp) s a bs
@[simp] theorem State.storeBytes_rndIn : (s.storeBytes a bs).rndIn = s.rndIn := State.storeBytes_other (·.rndIn) (by simp) s a bs
@[simp] theorem State.storeBytes_rndUsed : (s.storeBytes a bs).rndUsed = s.rndUsed := State.storeBytes_other (·.rndUsed) (by simp) s a bs
@[simp] theorem State.storeBytes_reg (r : Reg) : (s.storeBytes a bs).reg r = s.reg r := by simp [State.reg]
@[simp] theorem State.storeBytes_slot (k : Nat) : (s.storeBytes a bs).slot k = s.slot k := by simp [State.slot]
end

end Sys2Proof.Machine
end

