-- ==== Sys2Proof/Laws/Compositor.lean ====
section
/-! SUPPORT. The compositor pixel by pixel. -/

namespace Sys2Proof.Machine

variable (fb : Frame)

/-- A toggle flips its pixel and no other. -/
theorem Frame.pixel_toggle (c c' : Fin 64) (r r' : Fin 32) :
    (fb.toggle c r).pixel c' r' = (fb.pixel c' r' ^^ (decide (c' = c) && decide (r' = r))) := by
  obtain ⟨c, hc⟩ := c
  obtain ⟨c', hc'⟩ := c'
  obtain ⟨r, hr⟩ := r
  obtain ⟨r', hr'⟩ := r'
  simp only [Frame.toggle, Frame.pixel, Vector.get_eq_getElem, Vector.getElem_set, Fin.mk.injEq]
  by_cases h : c = c'
  · subst h
    by_cases h' : r = r'
    · subst h'
      simp
    · simp [h', Ne.symm h']
  · simp [h, Ne.symm h]

@[simp] theorem Frame.pixel_clear (c : Fin 64) (r : Fin 32) : Frame.clear.pixel c r = false := by
  simp [Frame.clear, Frame.pixel, Vector.get_eq_getElem]

/-- Two framebuffers with the same pixels are the same. -/
theorem Frame.ext_pixel {f g : Frame} (h : ∀ c r, f.pixel c r = g.pixel c r) : f = g := by
  refine Vector.ext fun c hc => Vector.ext fun r hr => ?_
  simpa [Frame.pixel, Vector.get_eq_getElem] using h ⟨c, hc⟩ ⟨r, hr⟩

/-- One column of a sprite row more. -/
theorem Frame.pixel_drawRow_cons (ox y : Nat) (b : Byte) (c : Nat) (cs : List Nat) (c' : Fin 64) (r' : Fin 32)
    (h : ∀ f : Frame, (Frame.drawRow ox y b f cs).pixel c' r' =
      (f.pixel c' r' ^^ (Frame.drawRow ox y b Frame.clear cs).pixel c' r')) :
    (Frame.drawRow ox y b fb (c :: cs)).pixel c' r' =
      (fb.pixel c' r' ^^ (spriteBit b c && (decide (c' = columnOf (ox + c)) && decide (r' = rowOf y))) ^^
        (Frame.drawRow ox y b Frame.clear cs).pixel c' r') := by
  rw [Frame.drawRow, h]
  cases spriteBit b c <;> simp [Frame.pixel_toggle]

/-- Drawing is an exclusive or with what the same row draws on a clear framebuffer. -/
theorem Frame.pixel_drawRow (ox y : Nat) (b : Byte) (cs : List Nat) (c' : Fin 64) (r' : Fin 32) :
    (Frame.drawRow ox y b fb cs).pixel c' r' =
      (fb.pixel c' r' ^^ (Frame.drawRow ox y b Frame.clear cs).pixel c' r') := by
  induction cs generalizing fb with
  | nil => simp [Frame.drawRow]
  | cons c cs ih =>
    rw [Frame.pixel_drawRow_cons fb ox y b c cs c' r' ih, Frame.pixel_drawRow_cons Frame.clear ox y b c cs c' r' ih]
    simp

/-- Some pixel was erased, as a statement about pixels (R171). -/
theorem Frame.erasedSome_iff (f g : Frame) :
    Frame.erasedSome f g = true ↔ ∃ c r, f.pixel c r = true ∧ g.pixel c r = false := by
  simp [Frame.erasedSome]

end Sys2Proof.Machine
end

