-- ==== Sys2Proof/Laws/Encoding.lean ====
section
/-! SUPPORT. The three word formats under the decoder's field extraction and masks (30_encoding.md rules R71, R74). -/

namespace Sys2Proof

/-! ### Fields -/

theorem extract_x_xyn (op x y n : BitVec 4) : (op ++ x ++ y ++ n).extractLsb' 8 4 = x := by
  refine BitVec.eq_of_getLsbD_eq fun i hi => ?_
  simp only [BitVec.getLsbD_extractLsb', BitVec.getLsbD_append]
  interval_cases i <;> simp

theorem extract_y_xyn (op x y n : BitVec 4) : (op ++ x ++ y ++ n).extractLsb' 4 4 = y := by
  refine BitVec.eq_of_getLsbD_eq fun i hi => ?_
  simp only [BitVec.getLsbD_extractLsb', BitVec.getLsbD_append]
  interval_cases i <;> simp

theorem extract_n_xyn (op x y n : BitVec 4) : (op ++ x ++ y ++ n).extractLsb' 0 4 = n := by
  refine BitVec.eq_of_getLsbD_eq fun i hi => ?_
  simp only [BitVec.getLsbD_extractLsb', BitVec.getLsbD_append]
  interval_cases i <;> simp

theorem extract_x_xkk (op x : BitVec 4) (kk : Byte) : (op ++ x ++ kk).extractLsb' 8 4 = x := by
  refine BitVec.eq_of_getLsbD_eq fun i hi => ?_
  simp only [BitVec.getLsbD_extractLsb', BitVec.getLsbD_append]
  interval_cases i <;> simp

theorem extract_kk_xkk (op x : BitVec 4) (kk : Byte) : (op ++ x ++ kk).extractLsb' 0 8 = kk := by
  refine BitVec.eq_of_getLsbD_eq fun i hi => ?_
  simp only [BitVec.getLsbD_extractLsb', BitVec.getLsbD_append]
  interval_cases i <;> simp

theorem extract_nnn (op : BitVec 4) (nnn : BitVec 12) : (op ++ nnn).extractLsb' 0 12 = nnn := by
  refine BitVec.eq_of_getLsbD_eq fun i hi => ?_
  simp only [BitVec.getLsbD_extractLsb', BitVec.getLsbD_append]
  interval_cases i <;> simp

@[simp] theorem fieldsOf_x_xyn (op : BitVec 4) (x y : Reg) (n : BitVec 4) : (fieldsOf (wordXyn op x y n)).x = x :=
  congrArg BitVec.toFin (extract_x_xyn op (BitVec.ofFin (w := 4) x) (BitVec.ofFin (w := 4) y) n)

@[simp] theorem fieldsOf_y_xyn (op : BitVec 4) (x y : Reg) (n : BitVec 4) : (fieldsOf (wordXyn op x y n)).y = y :=
  congrArg BitVec.toFin (extract_y_xyn op (BitVec.ofFin (w := 4) x) (BitVec.ofFin (w := 4) y) n)

@[simp] theorem fieldsOf_n_xyn (op : BitVec 4) (x y : Reg) (n : BitVec 4) : (fieldsOf (wordXyn op x y n)).n = n :=
  extract_n_xyn op (BitVec.ofFin (w := 4) x) (BitVec.ofFin (w := 4) y) n

@[simp] theorem fieldsOf_x_xkk (op : BitVec 4) (x : Reg) (kk : Byte) : (fieldsOf (wordXkk op x kk)).x = x :=
  congrArg BitVec.toFin (extract_x_xkk op (BitVec.ofFin (w := 4) x) kk)

@[simp] theorem fieldsOf_kk_xkk (op : BitVec 4) (x : Reg) (kk : Byte) : (fieldsOf (wordXkk op x kk)).kk = kk :=
  extract_kk_xkk op (BitVec.ofFin (w := 4) x) kk

@[simp] theorem fieldsOf_nnn (op : BitVec 4) (nnn : BitVec 12) : (fieldsOf (wordNnn op nnn)).nnn = nnn :=
  extract_nnn op nnn

/-! ### Masks -/

theorem wordXyn_and_F00F (op : BitVec 4) (x y : Reg) (n : BitVec 4) :
    wordXyn op x y n &&& 0xF00F#16 = wordXyn op 0 0 n := by
  refine BitVec.eq_of_getLsbD_eq fun i hi => ?_
  simp only [wordXyn, BitVec.getLsbD_append, BitVec.getLsbD_and]
  interval_cases i <;> simp

theorem wordXyn_and_F000 (op : BitVec 4) (x y : Reg) (n : BitVec 4) :
    wordXyn op x y n &&& 0xF000#16 = wordXyn op 0 0 0 := by
  refine BitVec.eq_of_getLsbD_eq fun i hi => ?_
  simp only [wordXyn, BitVec.getLsbD_append, BitVec.getLsbD_and]
  interval_cases i <;> simp

theorem wordXkk_and_F000 (op : BitVec 4) (x : Reg) (kk : Byte) :
    wordXkk op x kk &&& 0xF000#16 = wordXkk op 0 0 := by
  refine BitVec.eq_of_getLsbD_eq fun i hi => ?_
  simp only [wordXkk, BitVec.getLsbD_append, BitVec.getLsbD_and]
  interval_cases i <;> simp

theorem wordXkk_and_F0FF (op : BitVec 4) (x : Reg) (kk : Byte) :
    wordXkk op x kk &&& 0xF0FF#16 = wordXkk op 0 kk := by
  refine BitVec.eq_of_getLsbD_eq fun i hi => ?_
  simp only [wordXkk, BitVec.getLsbD_append, BitVec.getLsbD_and]
  interval_cases i <;> simp

theorem wordNnn_and_F000 (op : BitVec 4) (nnn : BitVec 12) :
    wordNnn op nnn &&& 0xF000#16 = wordNnn op 0 := by
  refine BitVec.eq_of_getLsbD_eq fun i hi => ?_
  simp only [wordNnn, BitVec.getLsbD_append, BitVec.getLsbD_and]
  interval_cases i <;> simp

/-- Two bytes in memory order make their word again (R53). -/
@[simp] theorem wordOfBytes_high_low (w : Word) : wordOfBytes (highByte w) (lowByte w) = w := by
  refine BitVec.eq_of_getLsbD_eq fun i hi => ?_
  simp only [wordOfBytes, highByte, lowByte, BitVec.getLsbD_append, BitVec.getLsbD_extractLsb']
  by_cases h : i < 8
  · simp [h]
  · have : i - 8 < 8 := by omega
    simp [h, this, show 8 + (i - 8) = i by omega]

end Sys2Proof
end

