-- ==== Sys2Proof/Laws/PerInstr.lean ====
section
/-! SUPPORT. Per instruction: the word the encoder writes is hit by a row of the decoder's table that rebuilds the
instruction with every operand. (That no earlier row takes the word is another matter.) -/

namespace Sys2Proof.Laws.EncodeFits

/-- A row of the table hits the instruction's word and builds the instruction from the word's fields. -/
def Statement (i : Instr) : Prop :=
  ∃ row ∈ decodeTable, row.hits (encode i) = true ∧ row.build (fieldsOf (encode i)) = i

theorem cls : Statement (.cls) :=
  ⟨decodeTable[0], List.getElem_mem _, by decide, rfl⟩

theorem ret : Statement (.ret) :=
  ⟨decodeTable[1], List.getElem_mem _, by decide, rfl⟩

theorem null : Statement (.null) :=
  ⟨decodeTable[2], List.getElem_mem _, by decide, rfl⟩

theorem sys (nnn : BitVec 12) : Statement (.sys nnn) := by
  refine ⟨decodeTable[3], List.getElem_mem _, ?_, ?_⟩
  · simp only [DecodeRow.hits, encode]
    exact beq_iff_eq.2 ((wordNnn_and_F000 ..).trans (by decide))
  · simp [encode, decodeTable, decodeTableControl, decodeTableAlu, decodeTableMisc, decodeTableF]

theorem jp (nnn : BitVec 12) : Statement (.jp nnn) := by
  refine ⟨decodeTable[4], List.getElem_mem _, ?_, ?_⟩
  · simp only [DecodeRow.hits, encode]
    exact beq_iff_eq.2 ((wordNnn_and_F000 ..).trans (by decide))
  · simp [encode, decodeTable, decodeTableControl, decodeTableAlu, decodeTableMisc, decodeTableF]

theorem call (nnn : BitVec 12) : Statement (.call nnn) := by
  refine ⟨decodeTable[5], List.getElem_mem _, ?_, ?_⟩
  · simp only [DecodeRow.hits, encode]
    exact beq_iff_eq.2 ((wordNnn_and_F000 ..).trans (by decide))
  · simp [encode, decodeTable, decodeTableControl, decodeTableAlu, decodeTableMisc, decodeTableF]

theorem seImm (x : Reg) (kk : Byte) : Statement (.seImm x kk) := by
  refine ⟨decodeTable[6], List.getElem_mem _, ?_, ?_⟩
  · simp only [DecodeRow.hits, encode]
    exact beq_iff_eq.2 ((wordXkk_and_F000 ..).trans (by decide))
  · simp [encode, decodeTable, decodeTableControl, decodeTableAlu, decodeTableMisc, decodeTableF]

theorem sneImm (x : Reg) (kk : Byte) : Statement (.sneImm x kk) := by
  refine ⟨decodeTable[7], List.getElem_mem _, ?_, ?_⟩
  · simp only [DecodeRow.hits, encode]
    exact beq_iff_eq.2 ((wordXkk_and_F000 ..).trans (by decide))
  · simp [encode, decodeTable, decodeTableControl, decodeTableAlu, decodeTableMisc, decodeTableF]

theorem seReg (x y : Reg) : Statement (.seReg x y) := by
  refine ⟨decodeTable[8], List.getElem_mem _, ?_, ?_⟩
  · simp only [DecodeRow.hits, encode]
    exact beq_iff_eq.2 ((wordXyn_and_F00F ..).trans (by decide))
  · simp [encode, decodeTable, decodeTableControl, decodeTableAlu, decodeTableMisc, decodeTableF]

theorem ldImm (x : Reg) (kk : Byte) : Statement (.ldImm x kk) := by
  refine ⟨decodeTable[9], List.getElem_mem _, ?_, ?_⟩
  · simp only [DecodeRow.hits, encode]
    exact beq_iff_eq.2 ((wordXkk_and_F000 ..).trans (by decide))
  · simp [encode, decodeTable, decodeTableControl, decodeTableAlu, decodeTableMisc, decodeTableF]

theorem addImm (x : Reg) (kk : Byte) : Statement (.addImm x kk) := by
  refine ⟨decodeTable[10], List.getElem_mem _, ?_, ?_⟩
  · simp only [DecodeRow.hits, encode]
    exact beq_iff_eq.2 ((wordXkk_and_F000 ..).trans (by decide))
  · simp [encode, decodeTable, decodeTableControl, decodeTableAlu, decodeTableMisc, decodeTableF]

theorem ldReg (x y : Reg) : Statement (.ldReg x y) := by
  refine ⟨decodeTable[11], List.getElem_mem _, ?_, ?_⟩
  · simp only [DecodeRow.hits, encode]
    exact beq_iff_eq.2 ((wordXyn_and_F00F ..).trans (by decide))
  · simp [encode, decodeTable, decodeTableControl, decodeTableAlu, decodeTableMisc, decodeTableF]

theorem orReg (x y : Reg) : Statement (.orReg x y) := by
  refine ⟨decodeTable[12], List.getElem_mem _, ?_, ?_⟩
  · simp only [DecodeRow.hits, encode]
    exact beq_iff_eq.2 ((wordXyn_and_F00F ..).trans (by decide))
  · simp [encode, decodeTable, decodeTableControl, decodeTableAlu, decodeTableMisc, decodeTableF]

theorem andReg (x y : Reg) : Statement (.andReg x y) := by
  refine ⟨decodeTable[13], List.getElem_mem _, ?_, ?_⟩
  · simp only [DecodeRow.hits, encode]
    exact beq_iff_eq.2 ((wordXyn_and_F00F ..).trans (by decide))
  · simp [encode, decodeTable, decodeTableControl, decodeTableAlu, decodeTableMisc, decodeTableF]

theorem xorReg (x y : Reg) : Statement (.xorReg x y) := by
  refine ⟨decodeTable[14], List.getElem_mem _, ?_, ?_⟩
  · simp only [DecodeRow.hits, encode]
    exact beq_iff_eq.2 ((wordXyn_and_F00F ..).trans (by decide))
  · simp [encode, decodeTable, decodeTableControl, decodeTableAlu, decodeTableMisc, decodeTableF]

theorem addReg (x y : Reg) : Statement (.addReg x y) := by
  refine ⟨decodeTable[15], List.getElem_mem _, ?_, ?_⟩
  · simp only [DecodeRow.hits, encode]
    exact beq_iff_eq.2 ((wordXyn_and_F00F ..).trans (by decide))
  · simp [encode, decodeTable, decodeTableControl, decodeTableAlu, decodeTableMisc, decodeTableF]

theorem subReg (x y : Reg) : Statement (.subReg x y) := by
  refine ⟨decodeTable[16], List.getElem_mem _, ?_, ?_⟩
  · simp only [DecodeRow.hits, encode]
    exact beq_iff_eq.2 ((wordXyn_and_F00F ..).trans (by decide))
  · simp [encode, decodeTable, decodeTableControl, decodeTableAlu, decodeTableMisc, decodeTableF]

theorem shr (x y : Reg) : Statement (.shr x y) := by
  refine ⟨decodeTable[17], List.getElem_mem _, ?_, ?_⟩
  · simp only [DecodeRow.hits, encode]
    exact beq_iff_eq.2 ((wordXyn_and_F00F ..).trans (by decide))
  · simp [encode, decodeTable, decodeTableControl, decodeTableAlu, decodeTableMisc, decodeTableF]

theorem subnReg (x y : Reg) : Statement (.subnReg x y) := by
  refine ⟨decodeTable[18], List.getElem_mem _, ?_, ?_⟩
  · simp only [DecodeRow.hits, encode]
    exact beq_iff_eq.2 ((wordXyn_and_F00F ..).trans (by decide))
  · simp [encode, decodeTable, decodeTableControl, decodeTableAlu, decodeTableMisc, decodeTableF]

theorem shl (x y : Reg) : Statement (.shl x y) := by
  refine ⟨decodeTable[19], List.getElem_mem _, ?_, ?_⟩
  · simp only [DecodeRow.hits, encode]
    exact beq_iff_eq.2 ((wordXyn_and_F00F ..).trans (by decide))
  · simp [encode, decodeTable, decodeTableControl, decodeTableAlu, decodeTableMisc, decodeTableF]

theorem sneReg (x y : Reg) : Statement (.sneReg x y) := by
  refine ⟨decodeTable[20], List.getElem_mem _, ?_, ?_⟩
  · simp only [DecodeRow.hits, encode]
    exact beq_iff_eq.2 ((wordXyn_and_F00F ..).trans (by decide))
  · simp [encode, decodeTable, decodeTableControl, decodeTableAlu, decodeTableMisc, decodeTableF]

theorem ldI (nnn : BitVec 12) : Statement (.ldI nnn) := by
  refine ⟨decodeTable[21], List.getElem_mem _, ?_, ?_⟩
  · simp only [DecodeRow.hits, encode]
    exact beq_iff_eq.2 ((wordNnn_and_F000 ..).trans (by decide))
  · simp [encode, decodeTable, decodeTableControl, decodeTableAlu, decodeTableMisc, decodeTableF]

theorem jpV0 (nnn : BitVec 12) : Statement (.jpV0 nnn) := by
  refine ⟨decodeTable[22], List.getElem_mem _, ?_, ?_⟩
  · simp only [DecodeRow.hits, encode]
    exact beq_iff_eq.2 ((wordNnn_and_F000 ..).trans (by decide))
  · simp [encode, decodeTable, decodeTableControl, decodeTableAlu, decodeTableMisc, decodeTableF]

theorem rnd (x : Reg) (kk : Byte) : Statement (.rnd x kk) := by
  refine ⟨decodeTable[23], List.getElem_mem _, ?_, ?_⟩
  · simp only [DecodeRow.hits, encode]
    exact beq_iff_eq.2 ((wordXkk_and_F000 ..).trans (by decide))
  · simp [encode, decodeTable, decodeTableControl, decodeTableAlu, decodeTableMisc, decodeTableF]

theorem drw (x y : Reg) (n : BitVec 4) : Statement (.drw x y n) := by
  refine ⟨decodeTable[24], List.getElem_mem _, ?_, ?_⟩
  · simp only [DecodeRow.hits, encode]
    exact beq_iff_eq.2 ((wordXyn_and_F000 ..).trans (by decide))
  · simp [encode, decodeTable, decodeTableControl, decodeTableAlu, decodeTableMisc, decodeTableF]

theorem skp (x : Reg) : Statement (.skp x) := by
  refine ⟨decodeTable[25], List.getElem_mem _, ?_, ?_⟩
  · simp only [DecodeRow.hits, encode]
    exact beq_iff_eq.2 ((wordXkk_and_F0FF ..).trans (by decide))
  · simp [encode, decodeTable, decodeTableControl, decodeTableAlu, decodeTableMisc, decodeTableF]

theorem sknp (x : Reg) : Statement (.sknp x) := by
  refine ⟨decodeTable[26], List.getElem_mem _, ?_, ?_⟩
  · simp only [DecodeRow.hits, encode]
    exact beq_iff_eq.2 ((wordXkk_and_F0FF ..).trans (by decide))
  · simp [encode, decodeTable, decodeTableControl, decodeTableAlu, decodeTableMisc, decodeTableF]

theorem ldVxDt (x : Reg) : Statement (.ldVxDt x) := by
  refine ⟨decodeTable[27], List.getElem_mem _, ?_, ?_⟩
  · simp only [DecodeRow.hits, encode]
    exact beq_iff_eq.2 ((wordXkk_and_F0FF ..).trans (by decide))
  · simp [encode, decodeTable, decodeTableControl, decodeTableAlu, decodeTableMisc, decodeTableF]

theorem ldVxK (x : Reg) : Statement (.ldVxK x) := by
  refine ⟨decodeTable[28], List.getElem_mem _, ?_, ?_⟩
  · simp only [DecodeRow.hits, encode]
    exact beq_iff_eq.2 ((wordXkk_and_F0FF ..).trans (by decide))
  · simp [encode, decodeTable, decodeTableControl, decodeTableAlu, decodeTableMisc, decodeTableF]

theorem ldDtVx (x : Reg) : Statement (.ldDtVx x) := by
  refine ⟨decodeTable[29], List.getElem_mem _, ?_, ?_⟩
  · simp only [DecodeRow.hits, encode]
    exact beq_iff_eq.2 ((wordXkk_and_F0FF ..).trans (by decide))
  · simp [encode, decodeTable, decodeTableControl, decodeTableAlu, decodeTableMisc, decodeTableF]

theorem ldStVx (x : Reg) : Statement (.ldStVx x) := by
  refine ⟨decodeTable[30], List.getElem_mem _, ?_, ?_⟩
  · simp only [DecodeRow.hits, encode]
    exact beq_iff_eq.2 ((wordXkk_and_F0FF ..).trans (by decide))
  · simp [encode, decodeTable, decodeTableControl, decodeTableAlu, decodeTableMisc, decodeTableF]

theorem addI (x : Reg) : Statement (.addI x) := by
  refine ⟨decodeTable[31], List.getElem_mem _, ?_, ?_⟩
  · simp only [DecodeRow.hits, encode]
    exact beq_iff_eq.2 ((wordXkk_and_F0FF ..).trans (by decide))
  · simp [encode, decodeTable, decodeTableControl, decodeTableAlu, decodeTableMisc, decodeTableF]

theorem ldF (x : Reg) : Statement (.ldF x) := by
  refine ⟨decodeTable[32], List.getElem_mem _, ?_, ?_⟩
  · simp only [DecodeRow.hits, encode]
    exact beq_iff_eq.2 ((wordXkk_and_F0FF ..).trans (by decide))
  · simp [encode, decodeTable, decodeTableControl, decodeTableAlu, decodeTableMisc, decodeTableF]

theorem ldB (x : Reg) : Statement (.ldB x) := by
  refine ⟨decodeTable[33], List.getElem_mem _, ?_, ?_⟩
  · simp only [DecodeRow.hits, encode]
    exact beq_iff_eq.2 ((wordXkk_and_F0FF ..).trans (by decide))
  · simp [encode, decodeTable, decodeTableControl, decodeTableAlu, decodeTableMisc, decodeTableF]

theorem ldMemVx (x : Reg) : Statement (.ldMemVx x) := by
  refine ⟨decodeTable[34], List.getElem_mem _, ?_, ?_⟩
  · simp only [DecodeRow.hits, encode]
    exact beq_iff_eq.2 ((wordXkk_and_F0FF ..).trans (by decide))
  · simp [encode, decodeTable, decodeTableControl, decodeTableAlu, decodeTableMisc, decodeTableF]

theorem ldVxMem (x : Reg) : Statement (.ldVxMem x) := by
  refine ⟨decodeTable[35], List.getElem_mem _, ?_, ?_⟩
  · simp only [DecodeRow.hits, encode]
    exact beq_iff_eq.2 ((wordXkk_and_F0FF ..).trans (by decide))
  · simp [encode, decodeTable, decodeTableControl, decodeTableAlu, decodeTableMisc, decodeTableF]

end Sys2Proof.Laws.EncodeFits
end

