-- ==== Sys2Proof/Laws/Step.lean ====
section
/-! SUPPORT. What a fetch, an engine step and a step of the machine can do, each said once. -/

namespace Sys2Proof.Machine

variable {s t : State}

theorem State.fetch_of_lt (h : s.pc.toNat + 1 < 4096) :
    s.fetch = some (wordOfBytes (s.readByte s.pc.toNat) (s.readByte (s.pc.toNat + 1))) := by
  simp [State.fetch, Nat.not_le.2 h]

theorem State.fetch_none_iff : s.fetch = none ↔ s.pc.toNat + 1 ≥ 4096 := by
  unfold State.fetch
  split <;> simp_all

theorem State.fetch_some_lt {w : Word} (h : s.fetch = some w) : s.pc.toNat + 1 < 4096 := by
  by_contra hge
  rw [State.fetch_none_iff.2 (by omega)] at h
  cases h

/-- Every meaning answers a next state. -/
theorem exec_answers_next (j : Instr) (s : State) : ∃ t, exec j s = .next t := by
  cases j <;>
    simp only [exec, execCls, execRet, execNull, execSys, execJp, execCall, execSeImm, execSneImm, execSeReg, execSneReg,
      execLdImm, execAddImm, execLdReg, execOrReg, execAndReg, execXorReg, execAddReg, execSubReg, execShr, execSubnReg,
      execShl, execLdI, execJpV0, execRnd, execDrw, execSkp, execSknp, execLdVxDt, execLdVxK, execLdDtVx, execLdStVx,
      execAddI, execLdF, execLdB, execLdMemVx, execLdVxMem] <;>
    first
    | exact ⟨_, rfl⟩
    | (split <;> exact ⟨_, rfl⟩)

/-- What no instruction writes, and FR only together with ES = Faulted (R33, R34, R182). -/
theorem exec_keeps {j : Instr} (h : exec j s = .next t) :
    t.key = s.key ∧ t.stop = s.stop ∧ t.cfg = s.cfg ∧ t.started = s.started ∧ t.agenda = s.agenda ∧
    (t.fr = s.fr ∨ (t.es = .faulted ∧ t.fr ≠ none)) := by
  cases j <;>
    simp only [exec, execCls, execRet, execNull, execSys, execJp, execCall, execSeImm, execSneImm, execSeReg, execSneReg,
      execLdImm, execAddImm, execLdReg, execOrReg, execAndReg, execXorReg, execAddReg, execSubReg, execShr, execSubnReg,
      execShl, execLdI, execJpV0, execRnd, execDrw, execSkp, execSknp, execLdVxDt, execLdVxK, execLdDtVx, execLdStVx,
      execAddI, execLdF, execLdB, execLdMemVx, execLdVxMem] at h <;>
    first
    | (cases h; simp)
    | (split at h <;> cases h <;> simp)

/-- All an engine step that answers a next state can have done, guards included (R90). -/
theorem engineStep_cases (h : engineStep s = .next t) :
    s.Live ∧
    ((s.stop = true ∧ t = s.markStarted.halt) ∨
     (s.stop = false ∧ s.fetch = none ∧ t = s.markStarted.raise .outOfBoundsRead none) ∨
     (∃ w, s.stop = false ∧ s.fetch = some w ∧ decode w = none ∧ t = s.markStarted.raise .unknownInstruction (some w)) ∨
     (∃ w j, s.stop = false ∧ s.fetch = some w ∧ decode w = some j ∧ exec j s.markStarted = .next t)) := by
  have attempt : engineAttempt s.markStarted = .next t ∧ s.Live := by
    unfold engineStep at h
    split at h
    · exact ⟨h, .inl ‹_›⟩
    · exact ⟨h, .inr ‹_›⟩
    · cases h
    · cases h
  refine ⟨attempt.2, ?_⟩
  have h := attempt.1
  unfold engineAttempt at h
  rw [State.markStarted_stop, State.markStarted_fetch] at h
  split at h
  · rename_i hs
    cases h
    exact .inl ⟨hs, rfl⟩
  · rename_i hs
    have hs : s.stop = false := by simpa using hs
    split at h
    · rename_i hf
      cases h
      exact .inr (.inl ⟨hs, hf, rfl⟩)
    · rename_i w hf
      split at h
      · rename_i hd
        cases h
        exact .inr (.inr (.inl ⟨w, hs, hf, hd, rfl⟩))
      · rename_i j hd
        exact .inr (.inr (.inr ⟨w, j, hs, hf, hd, h⟩))

/-- A step performs the agenda's first action, or, with an empty agenda, the engine's step (R183). -/
theorem step_cases (h : step s = .next t) :
    (s.agenda = [] ∧ engineStep s = .next t) ∨
    (∃ a rest, s.agenda = a :: rest ∧ perform a (s.setAgenda rest) = .next t) := by
  unfold step nextAction at h
  split at h
  · exact .inl ⟨‹_›, h⟩
  · exact .inr ⟨_, _, ‹_›, h⟩

/-- What the actions beside the engine's can do. -/
theorem perform_cases {a : Action} (h : perform a s = .next t) :
    (a = .engineStep ∧ engineStep s = .next t) ∨
    (a = .decDT ∧ s.dtEnabled = true ∧ t = s.setDT (s.dt - 1)) ∨
    (a = .decST ∧ s.stEnabled = true ∧ t = s.setST (s.st - 1)) ∨
    (∃ k, a = .setKey k ∧ t = s.setKey k) ∨
    (a = .setStop ∧ t = s.setStop) ∨
    (a = .reset ∧ t = { State.resetWith s.cfg with agenda := s.agenda, rndIn := s.rndIn, rndUsed := s.rndUsed }) ∨
    (∃ image, a = .load image ∧ s.started = false ∧ t = loadImage image s) := by
  cases a with
  | engineStep => exact .inl ⟨rfl, h⟩
  | decDT =>
    simp only [perform, decDT] at h
    split at h
    · cases h; simp [*]
    · cases h
  | decST =>
    simp only [perform, decST] at h
    split at h
    · cases h; simp [*]
    · cases h
  | setKey k => cases h; simp
  | setStop => cases h; simp
  | reset => cases h; simp
  | load image =>
    simp only [perform, hostLoad] at h
    split at h
    · cases h
    · cases h; simp_all

/-- A load writes the image from PROG_START up, or nothing (R204, R205). -/
theorem loadImage_cases (image : List Byte) (s : State) :
    (image.length ≤ 3584 ∧ loadStatus image = .ok ∧ loadImage image s = s.storeBytes 0x200 image) ∨
    (image.length > 3584 ∧ loadStatus image = .programTooLarge ∧ loadImage image s = s) := by
  by_cases h : image.length ≤ 3584
  · exact .inl ⟨h, by simp [loadStatus, h], by simp [loadImage, loadStatus, h]⟩
  · exact .inr ⟨by omega, by simp [loadStatus, h], by simp [loadImage, loadStatus, h]⟩

end Sys2Proof.Machine
end

