-- ==== Sys2Proof/Tests/Slice0.lean ====
section
/-! SUPPORT. Small tests: the well-formedness check on ill-formed terms, a written-out word per constructor, single steps taken
from the vectors of 95_test_vectors.md (each test names its vector), and a witness for every statement that has hypotheses. -/

namespace Sys2Proof.Tests

open Sys2Proof Sys2Proof.Machine

/-! ### Well-formedness -/

theorem test_wf_refuses_sys_null : (Instr.sys 0x000).wf = false := by decide
theorem test_wf_refuses_sys_cls : (Instr.sys 0x0E0).wf = false := by decide
theorem test_wf_refuses_sys_ret : (Instr.sys 0x0EE).wf = false := by decide
theorem test_wf_accepts_sys : (Instr.sys 0x0E1).wf = true := by decide

/-! ### Decoding, word by word (R74; vectors D-1 to D-20) -/

theorem test_decode_cls : decode 0b0000000011100000#16 = some .cls := by decide
theorem test_decode_ret : decode 0b0000000011101110#16 = some .ret := by decide
theorem test_decode_null : decode 0b0000000000000000#16 = some .null := by decide
theorem test_decode_sys : decode 0b0000111111111111#16 = some (.sys 0xFFF) := by decide
theorem test_decode_jp : decode 0b0001101010111100#16 = some (.jp 0xABC) := by decide
theorem test_decode_call : decode 0b0010001100000000#16 = some (.call 0x300) := by decide
theorem test_decode_seImm : decode 0b0011101001011100#16 = some (.seImm 0xA 0x5C) := by decide
theorem test_decode_sneImm : decode 0b0100001101000010#16 = some (.sneImm 3 0x42) := by decide
theorem test_decode_seReg : decode 0b0101101010110000#16 = some (.seReg 0xA 0xB) := by decide
theorem test_decode_ldImm : decode 0b0110101000000101#16 = some (.ldImm 0xA 0x05) := by decide
theorem test_decode_addImm : decode 0b0111000100000011#16 = some (.addImm 1 0x03) := by decide
theorem test_decode_ldReg : decode 0b1000000100100000#16 = some (.ldReg 1 2) := by decide
theorem test_decode_orReg : decode 0b1000000100100001#16 = some (.orReg 1 2) := by decide
theorem test_decode_andReg : decode 0b1000000100100010#16 = some (.andReg 1 2) := by decide
theorem test_decode_xorReg : decode 0b1000000100100011#16 = some (.xorReg 1 2) := by decide
theorem test_decode_addReg : decode 0b1000000100100100#16 = some (.addReg 1 2) := by decide
theorem test_decode_subReg : decode 0b1000000100100101#16 = some (.subReg 1 2) := by decide
theorem test_decode_shr : decode 0b1000101010110110#16 = some (.shr 0xA 0xB) := by decide
theorem test_decode_subnReg : decode 0b1000000100100111#16 = some (.subnReg 1 2) := by decide
theorem test_decode_shl : decode 0b1000000100001110#16 = some (.shl 1 0) := by decide
theorem test_decode_sneReg : decode 0b1001101010110000#16 = some (.sneReg 0xA 0xB) := by decide
theorem test_decode_ldI : decode 0b1010001011110000#16 = some (.ldI 0x2F0) := by decide
theorem test_decode_jpV0 : decode 0b1011111111111111#16 = some (.jpV0 0xFFF) := by decide
theorem test_decode_rnd : decode 0b1100000100001111#16 = some (.rnd 1 0x0F) := by decide
theorem test_decode_drw : decode 0b1101000100101111#16 = some (.drw 1 2 15) := by decide
theorem test_decode_skp : decode 0b1110010110011110#16 = some (.skp 5) := by decide
theorem test_decode_sknp : decode 0b1110010110100001#16 = some (.sknp 5) := by decide
theorem test_decode_ldVxDt : decode 0b1111010100000111#16 = some (.ldVxDt 5) := by decide
theorem test_decode_ldVxK : decode 0b1111010100001010#16 = some (.ldVxK 5) := by decide
theorem test_decode_ldDtVx : decode 0b1111010100010101#16 = some (.ldDtVx 5) := by decide
theorem test_decode_ldStVx : decode 0b1111010100011000#16 = some (.ldStVx 5) := by decide
theorem test_decode_addI : decode 0b1111010100011110#16 = some (.addI 5) := by decide
theorem test_decode_ldF : decode 0b1111010100101001#16 = some (.ldF 5) := by decide
theorem test_decode_ldB : decode 0b1111010100110011#16 = some (.ldB 5) := by decide
theorem test_decode_ldMemVx : decode 0b1111010101010101#16 = some (.ldMemVx 5) := by decide
theorem test_decode_ldVxMem : decode 0b1111010101100101#16 = some (.ldVxMem 5) := by decide
theorem test_decode_illegal :
    [0x5AB1#16, 0x8AB8, 0x8ABD, 0x8ABF, 0x9AB1, 0xE500, 0xE59F, 0xE5FF, 0xF500, 0xF566].all (fun w => decode w == none) := by
  decide
theorem test_decodeBytes_by_name :
    decodeBytes [0x5A, 0xB1] = .error (.unknownInstruction 0x5AB1) ∧ decodeBytes [0x6A] = .error .truncated := ⟨rfl, rfl⟩
theorem test_decodeTableWord : decodeTableWord 16 0x3A5C = some (.seImm 0xA 0x5C) := by decide

/-! ### One step -/

/-- The state after the word is stored where the next step fetches it, and one step. -/
def stepped (w : Nat) (s : State) : Option State :=
  match step (s.withFetchWord 16 w) with
  | .next t => some t
  | _ => none

/-- A reset state with two registers set. -/
def with2 (x : Reg) (a : Byte) (y : Reg) (b : Byte) : State := (State.reset.setReg x a).setReg y b

/-- Reset under other parameters. -/
def resetUnder (z : ZeroWordPolicy) (m : BlockIMode) (o : VfDestOrder) (d : DrawVf) : State :=
  State.resetWith { Config.default with zeroWordPolicy := z, blockIMode := m, vfDestOrder := o, drawVf := d }

/-- The other option of each of R8's four. -/
def resetOther : State := resetUnder .nop .advance .resultLast .collision

/-- A reset state with the stack pointer at 16. -/
def fullStack : State := (List.replicate 16 0x200#16).foldl State.push State.reset

-- C-1 (the framebuffer lit by a draw first)
theorem test_cls : (stepped 0x00E0 (State.reset.setFrame (Frame.clear.toggle 3 4))).map
    (fun t => (t.fb.pixel 3 4, t.pc)) = some (false, 0x202) := by decide
-- C-3
theorem test_null_fatal : (stepped 0x0000 State.reset).map (fun t => (t.es, t.fr, t.pc)) =
    some (.faulted, some ⟨.nullInstruction, 0x200, some 0x0000⟩, 0x200) := by decide
theorem test_null_nop : (stepped 0x0000 resetOther).map (fun t => (t.es, t.pc)) = some (.idle, 0x202) := by decide
-- C-2
theorem test_sys : (stepped 0x0123 State.reset).map (fun t => (t.es, t.pc)) = some (.idle, 0x202) := by decide
-- C-4, and the example of R95
theorem test_jp : (stepped 0x1234 State.reset).map (·.pc) = some 0x234 := by decide
-- C-7, C-9
theorem test_call : (stepped 0x2300 State.reset).map (fun t => (t.slot 1, t.sp, t.pc)) = some (0x200, 1, 0x300) := by decide
theorem test_call_overflow : (stepped 0x2300 fullStack).map (fun t => (t.fr, t.sp, t.pc)) =
    some (some ⟨.stackOverflow, 0x200, some 0x2300⟩, 16, 0x200) := by decide
-- C-10, C-11
theorem test_ret : (stepped 0x00EE ((State.reset.push 0x204).goto 0x300)).map (fun t => (t.sp, t.pc, t.slot 1)) =
    some (0, 0x206, 0x204) := by decide
theorem test_ret_underflow : (stepped 0x00EE State.reset).map (·.fr) =
    some (some ⟨.stackUnderflow, 0x200, some 0x00EE⟩) := by decide
-- C-13, and R97 on C-14's word: nnn = 0xA00, V0 = 0 (the vector's own pc 0x000 is at odds with R97: notes/assumptions/7.md)
theorem test_jpV0_no_mask : (stepped 0xBFFF (State.reset.setReg 0 0xFF)).map (·.pc) = some 0x10FE := by decide
theorem test_jpV0_index_is_V0 : (stepped 0xBA00 (State.reset.setReg 0xA 0xFF)).map (·.pc) = some 0xA00 := by decide
-- C-15, C-16
theorem test_seImm_skips : (stepped 0x3342 (State.reset.setReg 3 0x42)).map (·.pc) = some 0x204 := by decide
theorem test_seImm_falls : (stepped 0x3342 (State.reset.setReg 3 0x41)).map (·.pc) = some 0x202 := by decide
-- C-17, C-18
theorem test_sneImm_skips : (stepped 0x4342 (State.reset.setReg 3 0x41)).map (·.pc) = some 0x204 := by decide
theorem test_sneImm_falls : (stepped 0x4342 (State.reset.setReg 3 0x42)).map (·.pc) = some 0x202 := by decide
-- C-19, C-21
theorem test_seReg : (stepped 0x5120 (with2 1 7 2 7)).map (·.pc) = some 0x204 := by decide
theorem test_sneReg : (stepped 0x9120 (with2 1 7 2 8)).map (·.pc) = some 0x204 := by decide
-- A-1, A-3, A-5, A-6
theorem test_ldImm : (stepped 0x6A05 State.reset).map (fun t => (t.reg 0xA, t.pc)) = some (0x05, 0x202) := by decide
theorem test_addImm_no_carry : (stepped 0x7103 (with2 1 0xFE VF 0x55)).map (fun t => (t.reg 1, t.reg VF)) =
    some (0x01, 0x55) := by decide
theorem test_addImm_vf : (stepped 0x7F01 (State.reset.setReg VF 0xFF)).map (·.reg VF) = some 0x00 := by decide
theorem test_ldReg : (stepped 0x8120 (State.reset.setReg 2 0x33)).map (·.reg 1) = some 0x33 := by decide
-- A-7, A-8, A-9
theorem test_or_keeps_vf : (stepped 0x8121 ((with2 1 0xF0 2 0x0F).setReg VF 7)).map (fun t => (t.reg 1, t.reg VF)) =
    some (0xFF, 7) := by decide
theorem test_and : (stepped 0x8122 (with2 1 0xF0 2 0x3C)).map (·.reg 1) = some 0x30 := by decide
theorem test_xor : (stepped 0x8123 (with2 1 0xF0 2 0x3C)).map (·.reg 1) = some 0xCC := by decide
-- A-11, A-15 (both orders)
theorem test_add_carry : (stepped 0x8124 (with2 1 0xFF 2 0x01)).map (fun t => (t.reg 1, t.reg VF)) = some (0x00, 1) := by decide
theorem test_add_to_vf : ((stepped 0x8F14 (with2 VF 0x10 1 0x20)).map (·.reg VF),
    (stepped 0x8F14 ((resetOther.setReg VF 0x10).setReg 1 0x20)).map (·.reg VF)) = (some 0x00, some 0x30) := by decide
-- A-18, A-21
theorem test_sub_equal_is_borrow : (stepped 0x8125 (with2 1 5 2 5)).map (fun t => (t.reg 1, t.reg VF)) = some (0, 0) := by decide
theorem test_sub_reads_old_vf : (stepped 0x81F5 (with2 1 0x10 VF 0x01)).map (fun t => (t.reg 1, t.reg VF)) =
    some (0x0F, 1) := by decide
-- A-22, A-24
theorem test_shr : (stepped 0x8106 (State.reset.setReg 1 5)).map (fun t => (t.reg 1, t.reg VF)) = some (2, 1) := by decide
theorem test_shr_ignores_vy : (stepped 0x81F6 (with2 1 0x80 VF 0x33)).map (fun t => (t.reg 1, t.reg VF)) =
    some (0x40, 0) := by decide
-- A-26, A-28
theorem test_subn : (stepped 0x8127 (with2 1 5 2 6)).map (fun t => (t.reg 1, t.reg VF)) = some (1, 1) := by decide
theorem test_subn_borrow : (stepped 0x8127 (with2 1 1 2 0)).map (fun t => (t.reg 1, t.reg VF)) = some (0xFF, 0) := by decide
-- A-30, A-33
theorem test_shl : (stepped 0x810E (State.reset.setReg 1 0x81)).map (fun t => (t.reg 1, t.reg VF)) = some (2, 1) := by decide
theorem test_shl_to_vf : ((stepped 0x8F0E (State.reset.setReg VF 0x81)).map (·.reg VF),
    (stepped 0x8F0E (resetOther.setReg VF 0x81)).map (·.reg VF)) = (some 0x01, some 0x02) := by decide
-- A-34
theorem test_rnd : (stepped 0xC10F { State.reset with rndIn := [0xA7, 0x11] }).map (fun t => (t.reg 1, t.rndIn)) =
    some (0x07, [0x11]) := by decide
-- M-1, M-3, M-6
theorem test_ldI : (stepped 0xA2F0 State.reset).map (·.i) = some 0x02F0 := by decide
theorem test_addI_wraps : (stepped 0xF11E ((with2 1 1 VF 0x55).setI 0xFFFF)).map (fun t => (t.i, t.reg VF)) =
    some (0x0000, 0x55) := by decide
theorem test_ldF_unmasked : (stepped 0xF129 (State.reset.setReg 1 0xFF)).map (·.i) = some 0x04FB := by decide
-- M-10, M-11
theorem test_bcd_top : (stepped 0xF133 ((State.reset.setReg 1 156).setI 0xFFD)).map (·.readBytes 0xFFD 3) =
    some [1, 5, 6] := by decide
theorem test_bcd_faults : (stepped 0xF133 ((State.reset.setReg 1 1).setI 0xFFE)).map (fun t => (t.fr, t.readBytes 0xFFE 2)) =
    some (some ⟨.outOfBoundsWrite, 0x200, some 0xF133⟩, [0, 0]) := by decide
-- M-13 (Advance), M-16
theorem test_store_block : (stepped 0xF155 (((resetOther.setReg 0 1).setReg 1 2).setI 0x300)).map
    (fun t => (t.readBytes 0x300 3, t.i)) = some ([1, 2, 0], 0x302) := by decide
theorem test_store_block_faults : (stepped 0xFF55 (resetOther.setI 0xFF1)).map (fun t => (t.fr, t.i)) =
    some (some ⟨.outOfBoundsWrite, 0x200, some 0xFF55⟩, 0xFF1) := by decide
-- M-17, M-18
theorem test_load_block_top : (stepped 0xF065 ((State.reset.writeByte 0xFFF 0x5A).setI 0xFFF)).map (fun t => (t.reg 0, t.i)) =
    some (0x5A, 0xFFF) := by decide
theorem test_load_block_faults : (stepped 0xF165 (State.reset.setI 0xFFF)).map (fun t => (t.fr, t.reg 0)) =
    some (some ⟨.outOfBoundsRead, 0x200, some 0xF165⟩, 0) := by decide
-- T-1, T-3, T-4
theorem test_ldVxDt : (stepped 0xF307 (State.reset.setDT 0x3C)).map (·.reg 3) = some 0x3C := by decide
theorem test_ldDtVx : (stepped 0xF315 (State.reset.setReg 3 0x3C)).map (·.dt) = some 0x3C := by decide
theorem test_ldStVx : (stepped 0xF318 (State.reset.setReg 3 5)).map (·.status.st) = some 5 := by decide
-- T-9, T-11
theorem test_skp : (stepped 0xE19E ((State.reset.setReg 1 5).setKey (some 5))).map (·.pc) = some 0x204 := by decide
theorem test_skp_high : (stepped 0xE19E ((State.reset.setReg 1 0x10).setKey (some 0))).map (·.pc) = some 0x202 := by decide
-- T-12, T-13
theorem test_sknp_none : (stepped 0xE1A1 State.reset).map (·.pc) = some 0x204 := by decide
theorem test_sknp_pressed : (stepped 0xE1A1 ((State.reset.setReg 1 5).setKey (some 5))).map (·.pc) = some 0x202 := by decide
-- T-14, T-16
theorem test_wait_holds : (stepped 0xF20A State.reset).map (fun t => (t.es, t.pc, t.reg 2)) = some (.waiting, 0x200, 0) := by
  decide
theorem test_wait_completes : (stepped 0xF20A (State.reset.setKey (some 3))).map (fun t => (t.reg 2, t.key, t.pc, t.es)) =
    some (3, some 3, 0x202, .idle) := by decide
-- G-1 (four of its pixels and two neighbours), G-15
theorem test_drw_wraps : (stepped 0xD011 (((State.reset.setReg 0 63).writeByte 0x300 0xFF).setI 0x300)).map
    (fun t => [t.fb.pixel 63 0, t.fb.pixel 0 0, t.fb.pixel 6 0, t.fb.pixel 7 0, t.fb.pixel 62 0, t.fb.pixel 63 1]) =
    some [true, true, true, false, false, false] := by decide
theorem test_drw_collision : (stepped 0xDF11 (((resetOther.setReg VF 3).setFrame (Frame.clear.toggle 3 0)).writeByte 0x300 0x80
    |>.setI 0x300)).map (fun t => (t.fb.pixel 3 0, t.reg VF)) = some (false, 1) := by decide

/-! ### Faults of the step, the agents and the host -/

-- X-1, X-5
theorem test_unknown : (stepped 0xFFFF State.reset).map (fun t => (t.es, t.fr, t.pc)) =
    some (.faulted, some ⟨.unknownInstruction, 0x200, some 0xFFFF⟩, 0x200) := by decide
theorem test_fetch_fault : (match step (State.reset.goto 0xFFF) with | .next t => t.fr | _ => none) =
    some ⟨.outOfBoundsRead, 0xFFF, none⟩ := by decide
-- T-19
theorem test_stop_first : (match step (State.reset.setStop.placeWord 0x200 0xFFFF) with | .next t => some (t.es, t.fr) | _ => none) =
    some (.stopped, none) := by decide
-- T-8, T-7
theorem test_decDT_while_faulted :
    (match step ((State.reset.raise .unknownInstruction none).setDT 3 |>.setAgenda [.decDT]) with | .next t => some t.dt | _ => none) =
    some 2 := by decide
theorem test_decDT_after_stop : (match perform .decDT (State.reset.setStop.setDT 5) with | .refused r => some r | _ => none) =
    some .timerNotEnabled := by decide
-- X-4
theorem test_reset_clears_fault :
    (match perform .reset (State.reset.raise .unknownInstruction none) with | .next t => some (t.es, t.fr, t.pc) | _ => none) =
    some (.idle, none, 0x200) := by decide
-- the glyph region (R37): glyph 0xA, top and second rows
theorem test_glyph_bytes : State.reset.readBytes 0x032 5 = [0xF0, 0x90, 0xF0, 0x90, 0x90] := by decide

/-! ### Witnesses: for every statement with hypotheses, a state and operands that meet them together, at the edges of its clauses -/

/-- A reset state whose next word is LD VA, 05. -/
def ready : State := State.reset.placeWord 0x200 0x6A05

/-- A reset state whose next word is LD V2, K. -/
def waitingWord : State := State.reset.placeWord 0x200 0xF20A

theorem reset_memWf : State.reset.memWf := resetWith_memWf _

theorem witness_DecodeOfEncodeIsIdentity : (Instr.sys 0x0E1).wf = true := by decide
theorem witness_EncodeOfDecodeIsIdentity : ∃ w i, decode w = some i := ⟨0x00E1, .sys 0x0E1, by decide⟩
theorem witness_FetchIsBigEndian :
    (State.reset.goto 0xFFE).pc.toNat + 1 < 4096 ∧ (State.reset.goto 0xFFF).pc.toNat + 1 ≥ 4096 := by decide
theorem witness_StepRunsDecodedInstruction :
    ready.Live ∧ ready.stop = false ∧ ready.fetch = some 0x6A05 ∧ decode 0x6A05 = some (.ldImm 0xA 0x05) ∧ ready.agenda = [] :=
  ⟨.inl rfl, rfl, by decide, by decide, rfl⟩
theorem witness_StepRunsDecodedInstruction_agenda :
    (ready.setAgenda [.engineStep]).Live ∧ (ready.setAgenda [.engineStep]).fetch = some 0x6A05 ∧
    (ready.setAgenda [.engineStep]).agenda = .engineStep :: [] := ⟨.inl rfl, by decide, rfl⟩
theorem witness_StepIsOneAtomicAction :
    State.reset.agenda = [] ∧ (State.reset.setAgenda [.decDT]).agenda = .decDT :: [] ∧
    (State.reset.raise .unknownInstruction none).es = .faulted ∧ State.reset.halt.es = .stopped := ⟨rfl, rfl, rfl, rfl⟩
theorem witness_PlacedWordIsFetchedNext : (State.reset.goto 0xFFF).memWf := resetWith_memWf _
theorem witness_StopIsSeenBeforeTheFetch :
    State.reset.setStop.Live ∧ State.reset.setStop.stop = true ∧ Inv State.reset.setStop := by
  refine ⟨.inl rfl, rfl, reset_memWf, by decide, fun k => ?_, by decide, by decide⟩
  by_cases h : k - 1 < 16 <;> simp [State.setStop, State.slot, State.reset, State.resetWith, h]
theorem witness_FetchAndDecodeFaultsAreTaken_fetch :
    (State.reset.goto 0xFFF).Live ∧ (State.reset.goto 0xFFF).stop = false ∧ (State.reset.goto 0xFFF).pc.toNat + 1 ≥ 4096 :=
  ⟨.inl rfl, rfl, by decide⟩
theorem witness_FetchAndDecodeFaultsAreTaken_decode :
    (State.reset.placeWord 0x200 0xFFFF).Live ∧ (State.reset.placeWord 0x200 0xFFFF).fetch = some 0xFFFF ∧
    decode 0xFFFF = none := ⟨.inl rfl, by decide, by decide⟩
theorem witness_FaultedStepWritesNothing : ∃ t, engineStep State.reset = .next t ∧ t.es = .faulted := ⟨_, rfl, rfl⟩
theorem witness_FaultedStepWritesNothing_sticky :
    Action.decDT ≠ .reset ∧
    (∃ u, perform .decDT ((State.reset.raise .unknownInstruction none).setDT 1) = .next u) ∧
    ((State.reset.raise .unknownInstruction none).setDT 1).es = .faulted ∧
    ((State.reset.raise .unknownInstruction none).setDT 1).fr ≠ none ∧
    Action.setKey none ≠ .reset ∧ (∃ u, perform (.setKey none) State.reset.setStop.halt = .next u) ∧
    State.reset.setStop.halt.es = .stopped ∧ State.reset.setStop.halt.stop = true :=
  ⟨by decide, ⟨_, rfl⟩, rfl, by decide, by decide, ⟨_, rfl⟩, rfl, rfl⟩
theorem witness_FaultsHaveExactlyTheirCauses :
    ∃ t, State.reset.stop = false ∧ engineStep State.reset = .next t := ⟨_, rfl, rfl⟩
theorem witness_EngineStateTransitions : ∃ t, engineStep waitingWord = .next t ∧ t.es = .waiting := ⟨_, rfl, rfl⟩
theorem witness_StepKeepsInvariant : Inv State.reset ∧ ∃ t, step State.reset = .next t := by
  refine ⟨⟨reset_memWf, by decide, fun k => ?_, by decide, by decide⟩, _, rfl⟩
  by_cases h : k - 1 < 16 <;> simp [State.slot, State.reset, State.resetWith, h]
theorem witness_ParametersAreFixedForARun : ∃ t, step ready = .next t := ⟨_, rfl⟩
theorem witness_RegistersChangeOnlyAsDestinations :
    ∃ t, exec (.ldImm 1 5) State.reset = .next t ∧ VF ∉ destinations (.ldImm 1 5) ∧
      (VF = VF → ¬ WritesFlag State.reset.cfg (.ldImm 1 5)) := ⟨_, rfl, by decide, by simp [WritesFlag]⟩
theorem witness_AddressRegisterWriters :
    ∃ t, exec (.ldMemVx 1) State.reset = .next t ∧ ¬ WritesI State.reset.cfg (.ldMemVx 1) :=
  ⟨_, rfl, by simp [WritesI, State.reset, State.resetWith, Config.default]⟩
theorem witness_StackWriters :
    ∃ t, exec .cls State.reset = .next t ∧ Instr.cls ≠ .ret ∧ ∀ nnn, Instr.cls ≠ .call nnn := ⟨_, rfl, by simp, by simp⟩
theorem witness_FramebufferWriters :
    ∃ t, exec .ret State.reset = .next t ∧ Instr.ret ≠ .cls ∧ ∀ x y n, Instr.ret ≠ .drw x y n := ⟨_, rfl, by simp, by simp⟩
theorem witness_TimerWriters :
    ∃ t, exec .cls State.reset = .next t ∧ (∀ x, Instr.cls ≠ .ldDtVx x) ∧ ∀ x, Instr.cls ≠ .ldStVx x :=
  ⟨_, rfl, by simp, by simp⟩
theorem witness_MemoryWriters :
    ∃ t, exec (.ldVxMem 1) State.reset = .next t ∧ (∀ x, Instr.ldVxMem 1 ≠ .ldB x) ∧ ∀ x, Instr.ldVxMem 1 ≠ .ldMemVx x :=
  ⟨_, rfl, by simp, by simp⟩
theorem witness_EngineNeverWritesKeyOrStop : ∃ t, engineStep waitingWord = .next t := ⟨_, rfl⟩
theorem witness_NullFollowsTheZeroWordPolicy :
    State.reset.cfg.zeroWordPolicy = .fatal ∧ resetOther.cfg.zeroWordPolicy = .nop := ⟨rfl, rfl⟩
theorem witness_SysIsANoOp : (0x0E1#12 ≠ 0x000) ∧ (0x0E1#12 ≠ 0x0E0) ∧ (0x0E1#12 ≠ 0x0EE) := by decide
theorem witness_RetReturnsAfterTheCall :
    State.reset.sp.val = 0 ∧ (State.reset.push 0x204).sp.val ≠ 0 ∧ fullStack.sp.val ≠ 0 := by decide
theorem witness_CallPushesItsOwnAddress : fullStack.sp.val = 16 ∧ fullStack.pop.sp.val ≠ 16 := by decide
theorem witness_ReturnUndoesCall :
    ∃ t, State.reset.sp.val ≠ 16 ∧ exec (.call 0x300) State.reset = .next t ∧ t.sp = t.sp ∧ t.stack = t.stack :=
  ⟨_, by decide, rfl, rfl, rfl⟩
theorem witness_SixteenNestedCallsSucceedSeventeenthFaults :
    State.reset.sp.val = 0 ∧ (List.replicate 16 (0x200 : BitVec 12)).length = 16 := by decide
theorem witness_SkipsAndFlags_vf_orders :
    State.reset.cfg.vfDestOrder = .flagLast ∧ resetOther.cfg.vfDestOrder = .resultLast := ⟨rfl, rfl⟩
theorem witness_RandomByteIsMasked :
    State.reset.rndIn = [] ∧ { State.reset with rndIn := [0xA7] }.rndIn = 0xA7 :: [] := ⟨rfl, rfl⟩
theorem witness_BcdStoresThreeDigits :
    (State.reset.setI 0xFFE).i.toNat + 2 ≥ 4096 ∧ (State.reset.setI 0xFFD).memWf ∧ (State.reset.setI 0xFFD).i.toNat + 2 < 4096 :=
  ⟨by decide, reset_memWf, by decide⟩
theorem witness_BlockStoreWritesMemory :
    (State.reset.setI 0xFF1).i.toNat + (15 : Reg).val ≥ 4096 ∧ (State.reset.setI 0xFF0).memWf ∧
    (State.reset.setI 0xFF0).i.toNat + (15 : Reg).val < 4096 := ⟨by decide, reset_memWf, by decide⟩
theorem witness_BlockLoadReadsMemory :
    (State.reset.setI 0xFFF).i.toNat + (1 : Reg).val ≥ 4096 ∧ (State.reset.setI 0xFFF).i.toNat + (0 : Reg).val < 4096 := by
  decide
theorem witness_BlockAdvances_modes :
    State.reset.cfg.blockIMode = .unchanged ∧ resetOther.cfg.blockIMode = .advance := ⟨rfl, rfl⟩
theorem witness_BlockStoreThenLoadRestores :
    ∃ t, (State.reset.setI 0xFF0).memWf ∧ (State.reset.setI 0xFF0).i.toNat + (15 : Reg).val < 4096 ∧
      exec (.ldMemVx 15) (State.reset.setI 0xFF0) = .next t ∧ t.cfg = t.cfg ∧ t.mem = t.mem ∧ t.i = (State.reset.setI 0xFF0).i :=
  ⟨_, reset_memWf, by decide, rfl, rfl, rfl, rfl⟩
/-- Each clause at an edge: the first and the last byte stored over the high and the low byte of the next word. -/
theorem witness_StoredBytesAreFetchedNext :
    (State.reset.setI 0x202).memWf ∧ (State.reset.setI 0x202).pc.toNat + 3 < 4096 ∧
    (State.reset.setI 0x202).i.toNat + (1 : Reg).val < 4096 ∧
    (State.reset.setI 0x202).pc.toNat + 2 = (State.reset.setI 0x202).i.toNat + (0 : Reg).val ∧
    (State.reset.setI 0x202).pc.toNat + 3 = (State.reset.setI 0x202).i.toNat + (1 : Reg).val ∧ (1 : Reg) ≤ 1 ∧
    (State.reset.setI 0x200).i.toNat + 2 < 4096 ∧
    (State.reset.setI 0x200).pc.toNat + 2 = (State.reset.setI 0x200).i.toNat + (2 : Fin 3).val ∧
    (State.reset.setI 0x203).pc.toNat + 3 = (State.reset.setI 0x203).i.toNat + (0 : Fin 3).val :=
  ⟨reset_memWf, by decide, by decide, by decide, by decide, by decide, by decide, by decide, by decide⟩
/-- FX33 over the next word (R208): V1 = 123 at I = 0x202 makes it 0x0102. -/
theorem test_bcd_over_next_word :
    (stepped 0xF133 ((State.reset.setReg 1 123).setI 0x202)).map (·.fetch) = some (some 0x0102) := by decide
theorem witness_SkipsOnTheKey :
    (∃ k, (State.reset.setKey (some 0)).key = some k ∧ k.val = ((State.reset.setKey (some 0)).reg 1).toNat) ∧
    ¬ (∃ k, State.reset.key = some k ∧ k.val = (State.reset.reg 1).toNat) := ⟨⟨0, rfl, by decide⟩, by rintro ⟨k, h, -⟩; cases h⟩
theorem witness_WaitForKeyHoldsOrStores :
    State.reset.key = none ∧ (State.reset.setKey (some 15)).key = some 15 := ⟨rfl, rfl⟩
theorem witness_HoldIsLiftedByKeyOrStop :
    waitingWord.Live ∧ waitingWord.stop = false ∧ waitingWord.key = none ∧ waitingWord.fetch = some 0xF20A ∧
    decode 0xF20A = some (.ldVxK 2) := ⟨.inl rfl, rfl, rfl, by decide, by decide⟩
theorem witness_DrawXorsEveryPixel :
    (State.reset.setI 0x1001).i.toNat + (0 : BitVec 4).toNat > 4096 ∧ (State.reset.setI 0x1000).i.toNat + (0 : BitVec 4).toNat ≤ 4096 ∧
    (State.reset.setI 0xFFF).i.toNat + (2 : BitVec 4).toNat > 4096 ∧ (State.reset.setI 0xFFF).i.toNat + (1 : BitVec 4).toNat ≤ 4096 := by
  decide
/-- Both clauses of the flag are met: erasing the one lit pixel, and lighting one on a clear framebuffer. -/
theorem witness_CollisionFlag :
    resetOther.i.toNat + (1 : BitVec 4).toNat ≤ 4096 ∧ resetOther.cfg.drawVf = .collision ∧
    State.reset.cfg.drawVf = .unchanged ∧ (stepped 0xD121 (resetOther.setReg VF 0x55)).map (·.reg VF) = some 0 ∧
    (stepped 0xD121 ((resetOther.setReg VF 0x55).setFrame (Frame.clear.toggle 0 0))).map (·.reg VF) = some 1 := by
  decide
/-- Both origins: kept, and moved where Vx is VF and the draw writes it. -/
theorem witness_DrawingTwiceRestores :
    resetOther.i.toNat + (5 : BitVec 4).toNat ≤ 4096 ∧ State.reset.cfg.drawVf = .unchanged ∧ (0 : Reg) ≠ VF ∧
    (stepped 0xDF11 resetOther).map (fun t => (t.reg VF).toNat % 64) = some ((resetOther.reg VF).toNat % 64) ∧
    (stepped 0xDF11 (resetOther.setReg VF 3)).map (fun t => (t.reg VF).toNat % 64) = some 0 := by
  decide
theorem witness_ResetValues : State.reset = State.resetWith Config.default := rfl
theorem witness_LoadCopiesTheImage :
    State.reset.memWf ∧ State.reset.started = false ∧ (List.replicate 3584 (0 : Byte)).length ≤ 3584 :=
  ⟨reset_memWf, rfl, Nat.le_of_eq List.length_replicate⟩
theorem witness_LoadIsRefusedWhenTooLargeOrTooLate :
    State.reset.started = false ∧ (List.replicate 3585 (0 : Byte)).length > 3584 ∧ (∃ t, engineStep ready = .next t) ∧
    Action.setKey none ≠ .reset ∧ (∃ t, perform (.setKey none) ready.markStarted = .next t) ∧ ready.markStarted.started = true :=
  ⟨rfl, Nat.lt_of_lt_of_eq (by decide : 3584 < 3585) List.length_replicate.symm, ⟨_, rfl⟩, by decide, ⟨_, rfl⟩, rfl⟩
theorem witness_TimerActions :
    State.reset.stop = false ∧ 0 < (State.reset.setDT 1).dt.toNat ∧ 0 < (State.reset.setST 255).st.toNat ∧
    State.reset.setStop.stop = true ∧ State.reset.dt.toNat = 0 ∧ State.reset.st.toNat = 0 := by decide
theorem witness_DelayTimerCountsDownToZero :
    ((State.reset.setDT 5).setAgenda (List.replicate 5 .decDT)).stop = false ∧
    ((State.reset.setDT 5).setAgenda (List.replicate 5 .decDT)).agenda =
      List.replicate ((State.reset.setDT 5).setAgenda (List.replicate 5 .decDT)).dt.toNat .decDT := by decide

/-- DT is 1 and is decremented at once; from then on the host writes KEY again and again. -/
def fairRun : Run where
  states n := if n = 0 then State.reset.setDT 1 else State.reset
  acts n := if n = 0 then .decDT else .setKey none
  takes n := by
    by_cases h : n = 0
    · subst h; rfl
    · simp [h]; rfl

theorem witness_FairRunsEmptyTheDelayTimer :
    fairRun.WeaklyFair ∧ ∀ m, 0 ≤ m → (fairRun.states m).stop = false ∧
      (fairRun.states (m + 1)).dt.toNat ≤ (fairRun.states m).dt.toNat := by
  refine ⟨⟨fun n h => ?_, fun n h => ?_⟩, fun m _ => ?_⟩
  · exact absurd (h (n + 1) (by omega)) (by simp [fairRun, State.dtEnabled, State.reset, State.resetWith])
  · exact absurd (h (n + 1) (by omega)) (by simp [fairRun, State.stEnabled, State.reset, State.resetWith])
  · by_cases h : m = 0 <;> simp [fairRun, h, State.reset, State.resetWith, State.setDT]

theorem test_fault_codes : [FaultCode.outOfBoundsRead, .outOfBoundsWrite, .stackOverflow, .stackUnderflow, .unknownInstruction,
    .nullInstruction].map FaultCode.number = [1, 2, 3, 4, 5, 6] := by decide

end Sys2Proof.Tests
end

section
/-! PROOF. The decoder reads every well-formed instruction back from its word (30_encoding.md rules R71, R74, R75). The key fact
is that rows of the table which can take the same word are rare: an earlier row disturbs a later one only where the earlier one
is one of the three whole-word rows. -/

namespace Sys2Proof

/-- Some word may be hit by both rows: the patterns agree wherever both masks look (R75). -/
def DecodeRow.overlaps (e f : DecodeRow) : Bool := e.pattern &&& (e.mask &&& f.mask) == f.pattern &&& (e.mask &&& f.mask)

/-- The row takes one word only, and that word is CLS, RET or NULL (R74, rows 1 to 3). -/
def DecodeRow.isWholeWord (e : DecodeRow) : Bool := e.mask == 0xFFFF && [0x00E0, 0x00EE, 0x0000].contains e.pattern

theorem DecodeRow.overlaps_of_hits {e f : DecodeRow} {w : Word} (he : e.hits w = true) (hf : f.hits w = true) :
    e.overlaps f = true := by
  have he : w &&& e.mask = e.pattern &&& e.mask := beq_iff_eq.1 he
  have hf : w &&& f.mask = f.pattern &&& f.mask := beq_iff_eq.1 hf
  refine beq_iff_eq.2 ?_
  calc e.pattern &&& (e.mask &&& f.mask)
      = w &&& e.mask &&& f.mask := by rw [← BitVec.and_assoc, he]
    _ = w &&& f.mask &&& e.mask := by rw [BitVec.and_assoc, BitVec.and_comm e.mask, BitVec.and_assoc]
    _ = f.pattern &&& (e.mask &&& f.mask) := by rw [hf, BitVec.and_assoc, BitVec.and_comm e.mask]

theorem DecodeRow.word_of_hits_wholeWord {e : DecodeRow} {w : Word} (hits : e.hits w = true) (whole : e.isWholeWord = true) :
    w = 0x00E0 ∨ w = 0x00EE ∨ w = 0x0000 := by
  simp only [DecodeRow.isWholeWord, Bool.and_eq_true, beq_iff_eq, List.contains_iff_mem, List.mem_cons, List.not_mem_nil,
    or_false] at whole
  obtain ⟨mask, pattern⟩ := whole
  have word : w &&& 0xFFFF = e.pattern &&& 0xFFFF := by simpa [DecodeRow.hits, mask] using hits
  have all (v : Word) : v &&& 0xFFFF = v := BitVec.and_allOnes
  rw [all, all] at word
  rwa [word]

/-- R75: a row overlaps a later row only where it is one of the three whole-word rows. -/
theorem decodeTable_pairwise :
    decodeTable.Pairwise fun e f => e.isWholeWord = true ∨ e.overlaps f = false := by
  decide

/-- A row that hits the word decodes it, unless the word is one of the three that two rows take (R75, R76). -/
theorem decode_of_mem_of_hits {row : DecodeRow} {w : Word} (mem : row ∈ decodeTable) (hits : row.hits w = true)
    (single : ¬ (w = 0x00E0 ∨ w = 0x00EE ∨ w = 0x0000)) : decode w = some (row.build (fieldsOf w)) := by
  obtain ⟨before, after, table⟩ := List.append_of_mem mem
  have earlier : ∀ e ∈ before, e.hits w = false := by
    intro e he
    by_contra hit
    have hit : e.hits w = true := by simpa using hit
    have apart := (List.pairwise_append.1 (table ▸ decodeTable_pairwise)).2.2 e he row List.mem_cons_self
    rcases apart with whole | disjoint
    · exact single (e.word_of_hits_wholeWord hit whole)
    · simp [DecodeRow.overlaps_of_hits hit hits] at disjoint
  have first : decodeTable.find? (·.hits w) = some row :=
    List.find?_eq_some_iff_append.2 ⟨hits, before, after, table, fun e he => by simp [earlier e he]⟩
  simp [decode, first]

/-- The opcode nibble is 0 in the words of CLS, RET, NULL and SYS only (R74); the mask of the other words
leaves constants. -/
theorem encode_cases (i : Instr) :
    i = .cls ∨ i = .ret ∨ i = .null ∨ (∃ nnn, i = .sys nnn) ∨ encode i &&& 0xF000 ≠ 0x0000 := by
  cases i <;> simp [encode, wordNnn_and_F000, wordXkk_and_F000, wordXyn_and_F000] <;> decide

theorem Instr.wf_sys_iff (nnn : BitVec 12) :
    (Instr.sys nnn).wf = true ↔ nnn ≠ 0x000 ∧ nnn ≠ 0x0E0 ∧ nnn ≠ 0x0EE := by
  simp [Instr.wf, and_assoc]

/-- No well-formed instruction but CLS, RET and NULL has one of their three words (R75). -/
theorem encode_cases_of_wf {i : Instr} (wf : i.wf = true) :
    i = .cls ∨ i = .ret ∨ i = .null ∨ ¬ (encode i = 0x00E0 ∨ encode i = 0x00EE ∨ encode i = 0x0000) := by
  rcases encode_cases i with h | h | h | ⟨nnn, rfl⟩ | nibble
  · exact .inl h
  · exact .inr (.inl h)
  · exact .inr (.inr (.inl h))
  · have operand {w : Word} (h : encode (.sys nnn) = w) : nnn = (fieldsOf w).nnn := by rw [← h, encode, fieldsOf_nnn]
    obtain ⟨null, cls, ret⟩ := (Instr.wf_sys_iff nnn).1 wf
    refine .inr (.inr (.inr ?_))
    rintro (h | h | h)
    · exact cls (operand h)
    · exact ret (operand h)
    · exact null (operand h)
  · refine .inr (.inr (.inr ?_))
    rintro (h | h | h) <;> exact nibble (by rw [h]; decide)

/-- Every instruction's word is hit by its own row, the per-instruction law for all of them at once. -/
theorem encode_fits : ∀ i : Instr, Laws.EncodeFits.Statement i
  | .cls => Laws.EncodeFits.cls
  | .ret => Laws.EncodeFits.ret
  | .null => Laws.EncodeFits.null
  | .sys nnn => Laws.EncodeFits.sys nnn
  | .jp nnn => Laws.EncodeFits.jp nnn
  | .call nnn => Laws.EncodeFits.call nnn
  | .seImm x kk => Laws.EncodeFits.seImm x kk
  | .sneImm x kk => Laws.EncodeFits.sneImm x kk
  | .seReg x y => Laws.EncodeFits.seReg x y
  | .ldImm x kk => Laws.EncodeFits.ldImm x kk
  | .addImm x kk => Laws.EncodeFits.addImm x kk
  | .ldReg x y => Laws.EncodeFits.ldReg x y
  | .orReg x y => Laws.EncodeFits.orReg x y
  | .andReg x y => Laws.EncodeFits.andReg x y
  | .xorReg x y => Laws.EncodeFits.xorReg x y
  | .addReg x y => Laws.EncodeFits.addReg x y
  | .subReg x y => Laws.EncodeFits.subReg x y
  | .shr x y => Laws.EncodeFits.shr x y
  | .subnReg x y => Laws.EncodeFits.subnReg x y
  | .shl x y => Laws.EncodeFits.shl x y
  | .sneReg x y => Laws.EncodeFits.sneReg x y
  | .ldI nnn => Laws.EncodeFits.ldI nnn
  | .jpV0 nnn => Laws.EncodeFits.jpV0 nnn
  | .rnd x kk => Laws.EncodeFits.rnd x kk
  | .drw x y n => Laws.EncodeFits.drw x y n
  | .skp x => Laws.EncodeFits.skp x
  | .sknp x => Laws.EncodeFits.sknp x
  | .ldVxDt x => Laws.EncodeFits.ldVxDt x
  | .ldVxK x => Laws.EncodeFits.ldVxK x
  | .ldDtVx x => Laws.EncodeFits.ldDtVx x
  | .ldStVx x => Laws.EncodeFits.ldStVx x
  | .addI x => Laws.EncodeFits.addI x
  | .ldF x => Laws.EncodeFits.ldF x
  | .ldB x => Laws.EncodeFits.ldB x
  | .ldMemVx x => Laws.EncodeFits.ldMemVx x
  | .ldVxMem x => Laws.EncodeFits.ldVxMem x

/-- Decoding undoes encoding (R71, R74, R76). -/
theorem decode_encode {i : Instr} (wf : i.wf = true) : decode (encode i) = some i := by
  rcases encode_cases_of_wf wf with rfl | rfl | rfl | single
  · decide
  · decide
  · decide
  · obtain ⟨row, mem, hits, build⟩ := encode_fits i
    rw [decode_of_mem_of_hits mem hits single, build]

end Sys2Proof
end

section
/-! PROOF. The frame of the shared operations as `ChangesOnly`, and how an instruction ends (40_control.md rule R90). -/

namespace Sys2Proof.Machine

variable {e : Effects} {s t : State}

/-- Ending an instruction adds nothing to what it changed: `pc` and ES are outside the frame. -/
theorem ChangesOnly.goto (h : ChangesOnly e s t) (p : Word) : ChangesOnly e s (t.goto p) where
  regs r hr := (t.goto_reg p r).trans (h.regs r hr)
  i := h.i
  sp := h.sp
  slots hs k := (t.goto_slot p k).trans (h.slots hs k)
  dt := h.dt
  st := h.st
  fb := h.fb
  rndIn := h.rndIn
  rndUsed := h.rndUsed
  mem a ha := (t.goto_readByte p a).trans (h.mem a ha)
  key := h.key
  stop := h.stop
  fr := h.fr
  cfg := h.cfg
  started := h.started
  agenda := h.agenda

theorem ChangesOnly.refl (e : Effects) (s : State) : ChangesOnly e s s := by
  constructor <;> intros <;> rfl

theorem changesOnly_goto (s : State) (p : Word) : ChangesOnly {} s (s.goto p) := (ChangesOnly.refl {} s).goto p

theorem changesOnly_setFrame (s : State) (fb : Frame) : ChangesOnly { fb := true } s (s.setFrame fb) := by
  constructor <;> simp

theorem changesOnly_pop (s : State) : ChangesOnly { stack := true } s s.pop := by
  constructor <;> simp

theorem changesOnly_push (s : State) (w : Word) : ChangesOnly { stack := true } s (s.push w) := by
  constructor <;> simp

theorem retiresTo_goto (s : State) (p : Word) : RetiresTo p (s.goto p) := ⟨rfl, rfl⟩

/-- A skip is one of two gotos (R90). -/
theorem State.skipIf_eq_goto (s : State) (c : Bool) : s.skipIf c = s.goto (if c then s.pc + 4 else s.pc + 2) := by
  cases c <;> rfl

/-- Fault entry by an instruction records that instruction's word (R181). -/
theorem faultsWith_raiseBy (f : FaultCode) (i : Instr) (s : State) :
    FaultsWith f (some (encode i)) s (s.raiseBy f i) := rfl

theorem zextAddr_toNat (nnn : BitVec 12) : (zextAddr nnn).toNat = nnn.toNat :=
  BitVec.toNat_setWidth_of_le (by decide)

theorem zextByte_toNat (b : Byte) : (zextByte b).toNat = b.toNat :=
  BitVec.toNat_setWidth_of_le (by decide)

/-- R97: the indexed target stays far below 2^16. -/
theorem zextAddr_add_zextByte_toNat (nnn : BitVec 12) (b : Byte) :
    (zextAddr nnn + zextByte b).toNat = nnn.toNat + b.toNat := by
  rw [BitVec.toNat_add, zextAddr_toNat, zextByte_toNat]
  omega

end Sys2Proof.Machine
end

section
/-! PROOF. Control, and compare-and-skip: what each instruction answers, then the statements (40_control.md rules R91 to R101). -/

namespace Sys2Proof.Machine

/-! ### Answers -/

variable (s : State)

theorem exec_cls : exec .cls s = .next ((s.setFrame Frame.clear).goto (s.pc + 2)) := rfl

theorem exec_null_of_fatal (h : s.cfg.zeroWordPolicy = .fatal) :
    exec .null s = .next (s.raiseBy .nullInstruction .null) := by
  simp [exec, execNull, h]

theorem exec_null_of_nop (h : s.cfg.zeroWordPolicy = .nop) : exec .null s = .next (s.goto (s.pc + 2)) := by
  simp [exec, execNull, h, State.advance]

theorem exec_sys (nnn : BitVec 12) : exec (.sys nnn) s = .next (s.goto (s.pc + 2)) := rfl

theorem exec_ret_of_empty (h : s.sp.val = 0) : exec .ret s = .next (s.raiseBy .stackUnderflow .ret) := if_pos h

theorem exec_ret_of_nonempty (h : s.sp.val ≠ 0) : exec .ret s = .next (s.pop.goto (s.slot s.sp.val + 2)) := if_neg h

theorem exec_jp (nnn : BitVec 12) : exec (.jp nnn) s = .next (s.goto (zextAddr nnn)) := rfl

theorem exec_jpV0 (nnn : BitVec 12) : exec (.jpV0 nnn) s = .next (s.goto (zextAddr nnn + zextByte (s.reg 0))) := rfl

theorem exec_call_of_full (nnn : BitVec 12) (h : s.sp.val = 16) :
    exec (.call nnn) s = .next (s.raiseBy .stackOverflow (.call nnn)) := if_pos h

theorem exec_call_of_not_full (nnn : BitVec 12) (h : s.sp.val ≠ 16) :
    exec (.call nnn) s = .next ((s.push s.pc).goto (zextAddr nnn)) := if_neg h

theorem exec_seImm (x : Reg) (kk : Byte) :
    exec (.seImm x kk) s = .next (s.goto (if s.reg x = kk then s.pc + 4 else s.pc + 2)) := by
  simp [exec, execSeImm, State.skipIf_eq_goto]

theorem exec_sneImm (x : Reg) (kk : Byte) :
    exec (.sneImm x kk) s = .next (s.goto (if s.reg x = kk then s.pc + 2 else s.pc + 4)) := by
  simp [exec, execSneImm, State.skipIf_eq_goto]

theorem exec_seReg (x y : Reg) :
    exec (.seReg x y) s = .next (s.goto (if s.reg x = s.reg y then s.pc + 4 else s.pc + 2)) := by
  simp [exec, execSeReg, State.skipIf_eq_goto]

theorem exec_sneReg (x y : Reg) :
    exec (.sneReg x y) s = .next (s.goto (if s.reg x = s.reg y then s.pc + 2 else s.pc + 4)) := by
  simp [exec, execSneReg, State.skipIf_eq_goto]

/-! ### The statements -/

/-- Settles O25: the frame is the framebuffer's, and every pixel of the clear one is off. -/
theorem clsClearsTheFramebuffer : Obligations.ClsClearsTheFramebuffer :=
  ⟨decode_encode (i := .cls) rfl, fun s => ⟨_, exec_cls s, retiresTo_goto _ _, Frame.pixel_clear,
    (changesOnly_setFrame s Frame.clear).goto _⟩⟩

/-- Settles O26, policy by policy. -/
theorem nullFollowsTheZeroWordPolicy : Obligations.NullFollowsTheZeroWordPolicy := by
  refine ⟨decode_encode (i := .null) rfl, fun s => ⟨fun fatal => ?_, fun nop => ?_⟩⟩
  · exact ⟨_, exec_null_of_fatal s fatal, faultsWith_raiseBy _ .null s⟩
  · exact ⟨_, exec_null_of_nop s nop, retiresTo_goto _ _, changesOnly_goto s _⟩

/-- Settles O27: the three words left out are those whose SYS is not well-formed. -/
theorem sysIsANoOp : Obligations.SysIsANoOp := by
  refine fun nnn => ⟨fun null cls ret => ?_, fun s => ?_⟩
  · exact decode_encode (i := .sys nnn) ((Instr.wf_sys_iff nnn).2 ⟨null, cls, ret⟩)
  · exact ⟨_, exec_sys s nnn, retiresTo_goto _ _, changesOnly_goto s _⟩

/-- Settles O28, by whether the stack is empty. -/
theorem retReturnsAfterTheCall : Obligations.RetReturnsAfterTheCall := by
  refine ⟨decode_encode (i := .ret) rfl, fun s => ⟨fun empty => ?_, fun nonempty => ?_⟩⟩
  · exact ⟨_, exec_ret_of_empty s empty, faultsWith_raiseBy _ .ret s⟩
  · have depth : s.pop.sp.val + 1 = s.sp.val := by rw [State.pop_sp]; omega
    have slots (k : Nat) : (s.pop.goto (s.slot s.sp.val + 2)).slot k = s.slot k := by simp
    exact ⟨_, exec_ret_of_nonempty s nonempty, retiresTo_goto _ _, depth, slots, (changesOnly_pop s).goto _⟩

/-- Settles O29: neither target wraps. -/
theorem jumpsSetThePc : Obligations.JumpsSetThePc := by
  refine fun nnn => ⟨decode_encode (i := .jp nnn) rfl, decode_encode (i := .jpV0 nnn) rfl, fun s => ⟨?_, ?_⟩⟩
  · exact ⟨_, exec_jp s nnn, zextAddr_toNat nnn, rfl, changesOnly_goto s _⟩
  · exact ⟨_, exec_jpV0 s nnn, zextAddr_add_zextByte_toNat nnn (s.reg 0), rfl, changesOnly_goto s _⟩

/-- Settles O30, by whether the stack is full. -/
theorem callPushesItsOwnAddress : Obligations.CallPushesItsOwnAddress := by
  refine fun nnn => ⟨decode_encode (i := .call nnn) rfl, fun s => ⟨fun full => ?_, fun notFull => ?_⟩⟩
  · exact ⟨_, exec_call_of_full s nnn full, faultsWith_raiseBy _ (.call nnn) s⟩
  · have room : s.sp.val < 16 := by omega
    have top : ((s.push s.pc).goto (zextAddr nnn)).slot (s.sp.val + 1) = s.pc := by
      rw [State.goto_slot, State.push_slot s s.pc room (by omega), if_pos rfl]
    have others (k : Nat) (hk : 1 ≤ k) (hne : k ≠ s.sp.val + 1) :
        ((s.push s.pc).goto (zextAddr nnn)).slot k = s.slot k := by
      rw [State.goto_slot, State.push_slot s s.pc room hk, if_neg hne]
    exact ⟨_, exec_call_of_not_full s nnn notFull, zextAddr_toNat nnn, rfl, State.push_sp s s.pc room, top, others,
      (changesOnly_push s s.pc).goto _⟩

/-- Settles O33: each skip is a goto to the target the comparison picks. -/
theorem skipsOnAnImmediate : Obligations.SkipsOnAnImmediate := by
  refine fun x kk => ⟨decode_encode (i := .seImm x kk) rfl, decode_encode (i := .sneImm x kk) rfl, fun s => ⟨?_, ?_⟩⟩
  · exact ⟨_, exec_seImm s x kk, retiresTo_goto _ _, changesOnly_goto s _⟩
  · exact ⟨_, exec_sneImm s x kk, retiresTo_goto _ _, changesOnly_goto s _⟩

/-- Settles O34: each skip is a goto to the target the comparison picks. -/
theorem skipsOnTwoRegisters : Obligations.SkipsOnTwoRegisters := by
  refine fun x y => ⟨decode_encode (i := .seReg x y) rfl, decode_encode (i := .sneReg x y) rfl, fun s => ⟨?_, ?_⟩⟩
  · exact ⟨_, exec_seReg s x y, retiresTo_goto _ _, changesOnly_goto s _⟩
  · exact ⟨_, exec_sneReg s x y, retiresTo_goto _ _, changesOnly_goto s _⟩

end Sys2Proof.Machine
end

section
/-! PROOF. Register loads and the 8-bit ALU: the frame and the flag of a register write, the flag computations as numbers, what
each instruction answers, then the statements (41_alu.md rules R110 to R122). -/

namespace Sys2Proof.Machine

/-! ### Register writes and the shared write-back -/

theorem changesOnly_setReg (s : State) (x : Reg) (b : Byte) : ChangesOnly { regs := [x] } s (s.setReg x b) := by
  constructor <;> simp +contextual [State.reg_setReg_other]

theorem changesOnly_writeback (s : State) (x : Reg) (r : Byte) (f : Bool) :
    ChangesOnly { regs := [x, VF] } s (s.writeback x r f) := by
  constructor <;> simp +contextual [State.reg_writeback_frame]

/-- R110, and R111 where the destination is VF. -/
theorem flagResult_writeback (s : State) (x : Reg) (r : Byte) (f : Bool) :
    FlagResult x r.toNat (flagByte f).toNat s (s.writeback x r f) := by
  refine ⟨fun hx => ⟨?_, ?_⟩, ?_, ?_⟩
  · rw [State.reg_writeback_of_ne s hx, if_pos rfl]
  · rw [State.reg_writeback_of_ne s hx, if_neg hx.symm, if_pos rfl]
  · rintro rfl order
    simp [State.reg_writeback_vf, order]
  · rintro rfl order
    simp [State.reg_writeback_vf, order]

theorem FlagResult.goto {x : Reg} {r f : Nat} {s t : State} (h : FlagResult x r f s t) (p : Word) :
    FlagResult x r f s (t.goto p) := by
  simpa only [FlagResult, State.goto_reg] using h

/-- No register write moves the pc, so the advance is the one of the state before (R90). -/
theorem State.advance_writeback (s : State) (x : Reg) (r : Byte) (f : Bool) :
    (s.writeback x r f).advance = (s.writeback x r f).goto (s.pc + 2) := by
  rw [State.advance, State.writeback_pc]

/-- What an instruction does that loads one register and writes no flag. -/
theorem loads_of_exec {j : Instr} {s : State} {x : Reg} {b : Byte}
    (answer : exec j s = .next ((s.setReg x b).goto (s.pc + 2))) :
    ∃ t, exec j s = .next t ∧ RetiresTo (s.pc + 2) t ∧ t.reg x = b ∧ ChangesOnly { regs := [x] } s t :=
  ⟨_, answer, retiresTo_goto _ _, by rw [State.goto_reg, State.reg_setReg_same], (changesOnly_setReg s x b).goto _⟩

/-- What an instruction does that ends in the shared write-back (R110, R111). -/
theorem writesBack_of_exec {j : Instr} {s : State} {x : Reg} {r : Byte} {f : Bool} {result flag : Nat}
    (answer : exec j s = .next ((s.writeback x r f).goto (s.pc + 2)))
    (hresult : r.toNat = result) (hflag : (flagByte f).toNat = flag) :
    ∃ t, exec j s = .next t ∧ RetiresTo (s.pc + 2) t ∧ FlagResult x result flag s t ∧
      ChangesOnly { regs := [x, VF] } s t := by
  subst hresult hflag
  exact ⟨_, answer, retiresTo_goto _ _, (flagResult_writeback s x r f).goto _, (changesOnly_writeback s x r f).goto _⟩

/-! ### Results and flags as numbers -/

section
variable (a b : Byte)

theorem sub_toNat_eq_emod : (a - b).toNat = (((a.toNat : Int) - b.toNat) % 256).toNat := by
  have ha : a.toNat < 256 := a.isLt
  have hb : b.toNat < 256 := b.isLt
  rw [BitVec.toNat_sub]
  omega

theorem shiftRight_one_toNat : (a >>> 1).toNat = a.toNat / 2 := by
  rw [BitVec.toNat_ushiftRight, Nat.shiftRight_eq_div_pow, pow_one]

theorem shiftLeft_one_toNat : (a <<< 1).toNat = a.toNat * 2 % 256 := by
  rw [BitVec.toNat_shiftLeft, Nat.shiftLeft_eq, pow_one]

theorem flagByte_carryOut : (flagByte (carryOut a b)).toNat = if a.toNat + b.toNat > 255 then 1 else 0 := by
  simp only [flagByte_toNat, carryOut, decide_eq_true_eq]

theorem flagByte_noBorrow : (flagByte (noBorrow a b)).toNat = if a.toNat > b.toNat then 1 else 0 := by
  simp only [flagByte_toNat, noBorrow, decide_eq_true_eq]

/-- A flag that is bit `k` of a byte (R120, R122). -/
theorem flagByte_getLsbD (k : Nat) : (flagByte (a.getLsbD k)).toNat = a.toNat / 2 ^ k % 2 := by
  rw [flagByte_toNat, BitVec.getLsbD, Nat.testBit_eq_decide_div_mod_eq]
  have bit := Nat.mod_two_eq_zero_or_one (a.toNat / 2 ^ k)
  rcases bit with bit | bit <;> simp [bit]

theorem flagByte_shiftedOutLow : (flagByte (shiftedOutLow a)).toNat = a.toNat % 2 := by
  rw [shiftedOutLow, flagByte_getLsbD, pow_zero, Nat.div_one]

/-- Bit 7 is the top bit: nothing is left above it. -/
theorem flagByte_shiftedOutHigh : (flagByte (shiftedOutHigh a)).toNat = a.toNat / 128 := by
  have ha : a.toNat < 256 := a.isLt
  rw [shiftedOutHigh, flagByte_getLsbD]
  omega

end

/-! ### Answers -/

section
variable (s : State) (x y : Reg)

theorem exec_ldImm (kk : Byte) : exec (.ldImm x kk) s = .next ((s.setReg x kk).goto (s.pc + 2)) := rfl

theorem exec_addImm (kk : Byte) : exec (.addImm x kk) s = .next ((s.setReg x (s.reg x + kk)).goto (s.pc + 2)) := rfl

theorem exec_ldReg : exec (.ldReg x y) s = .next ((s.setReg x (s.reg y)).goto (s.pc + 2)) := rfl

theorem exec_orReg : exec (.orReg x y) s = .next ((s.setReg x (s.reg x ||| s.reg y)).goto (s.pc + 2)) := rfl

theorem exec_andReg : exec (.andReg x y) s = .next ((s.setReg x (s.reg x &&& s.reg y)).goto (s.pc + 2)) := rfl

theorem exec_xorReg : exec (.xorReg x y) s = .next ((s.setReg x (s.reg x ^^^ s.reg y)).goto (s.pc + 2)) := rfl

theorem exec_addReg : exec (.addReg x y) s =
    .next ((s.writeback x (s.reg x + s.reg y) (carryOut (s.reg x) (s.reg y))).goto (s.pc + 2)) :=
  congrArg Host.Outcome.next (s.advance_writeback x _ _)

theorem exec_subReg : exec (.subReg x y) s =
    .next ((s.writeback x (s.reg x - s.reg y) (noBorrow (s.reg x) (s.reg y))).goto (s.pc + 2)) :=
  congrArg Host.Outcome.next (s.advance_writeback x _ _)

theorem exec_shr : exec (.shr x y) s =
    .next ((s.writeback x (s.reg x >>> 1) (shiftedOutLow (s.reg x))).goto (s.pc + 2)) :=
  congrArg Host.Outcome.next (s.advance_writeback x _ _)

theorem exec_subnReg : exec (.subnReg x y) s =
    .next ((s.writeback x (s.reg y - s.reg x) (noBorrow (s.reg y) (s.reg x))).goto (s.pc + 2)) :=
  congrArg Host.Outcome.next (s.advance_writeback x _ _)

theorem exec_shl : exec (.shl x y) s =
    .next ((s.writeback x (s.reg x <<< 1) (shiftedOutHigh (s.reg x))).goto (s.pc + 2)) :=
  congrArg Host.Outcome.next (s.advance_writeback x _ _)

end

/-! ### The statements -/

/-- Settles O35: the byte loaded is the operand itself, or the sum as a byte. -/
theorem loadsAndImmediateAdd : Obligations.LoadsAndImmediateAdd := by
  refine fun x y kk => ⟨decode_encode (i := .ldImm x kk) rfl, decode_encode (i := .addImm x kk) rfl,
    decode_encode (i := .ldReg x y) rfl, fun s => ⟨?_, ?_, ?_⟩⟩
  · exact loads_of_exec (exec_ldImm s x kk)
  · obtain ⟨t, answer, retires, value, frame⟩ := loads_of_exec (exec_addImm s x kk)
    exact ⟨t, answer, retires, value ▸ BitVec.toNat_add (s.reg x) kk, frame⟩
  · exact loads_of_exec (exec_ldReg s x y)

/-- Settles O36: each operation on bytes is the one on their bits. -/
theorem bitwiseOperations : Obligations.BitwiseOperations := by
  refine fun x y => ⟨decode_encode (i := .orReg x y) rfl, decode_encode (i := .andReg x y) rfl,
    decode_encode (i := .xorReg x y) rfl, fun s => ⟨?_, ?_, ?_⟩⟩
  · obtain ⟨t, answer, retires, value, frame⟩ := loads_of_exec (exec_orReg s x y)
    exact ⟨t, answer, retires, fun _ => value ▸ BitVec.getLsbD_or, frame⟩
  · obtain ⟨t, answer, retires, value, frame⟩ := loads_of_exec (exec_andReg s x y)
    exact ⟨t, answer, retires, fun _ => value ▸ BitVec.getLsbD_and, frame⟩
  · obtain ⟨t, answer, retires, value, frame⟩ := loads_of_exec (exec_xorReg s x y)
    exact ⟨t, answer, retires, fun _ => value ▸ BitVec.getLsbD_xor, frame⟩

/-- Settles O37: the write-back of the sum as a byte and of its carry. -/
theorem addSetsCarry : Obligations.AddSetsCarry := fun x y =>
  ⟨decode_encode (i := .addReg x y) rfl, fun s =>
    writesBack_of_exec (exec_addReg s x y) (BitVec.toNat_add (s.reg x) (s.reg y)) (flagByte_carryOut (s.reg x) (s.reg y))⟩

/-- Settles O38: the second subtraction is the first with the operands exchanged. -/
theorem subtractionsSetNoBorrow : Obligations.SubtractionsSetNoBorrow := by
  refine fun x y => ⟨decode_encode (i := .subReg x y) rfl, decode_encode (i := .subnReg x y) rfl, fun s => ⟨?_, ?_⟩⟩
  · exact writesBack_of_exec (exec_subReg s x y) (sub_toNat_eq_emod (s.reg x) (s.reg y))
      (flagByte_noBorrow (s.reg x) (s.reg y))
  · exact writesBack_of_exec (exec_subnReg s x y) (sub_toNat_eq_emod (s.reg y) (s.reg x))
      (flagByte_noBorrow (s.reg y) (s.reg x))

/-- Settles O39: the bit lost is the remainder of the halving, or the overflow of the doubling. -/
theorem shiftsSetTheBitShiftedOut : Obligations.ShiftsSetTheBitShiftedOut := by
  refine fun x y => ⟨decode_encode (i := .shr x y) rfl, decode_encode (i := .shl x y) rfl, fun s => ⟨?_, ?_⟩⟩
  · exact writesBack_of_exec (exec_shr s x y) (shiftRight_one_toNat (s.reg x)) (flagByte_shiftedOutLow (s.reg x))
  · exact writesBack_of_exec (exec_shl s x y) (shiftLeft_one_toNat (s.reg x)) (flagByte_shiftedOutHigh (s.reg x))

end Sys2Proof.Machine
end

section
/-! PROOF. The address register and the memory instructions: the frame and the reads of a run of stores, of a block of register
loads and of the move of I, what each instruction answers, then the statements (42_index_memory.md rules R130 to R136). -/

namespace Sys2Proof.Machine

/-! ### The address register -/

theorem changesOnly_setI (s : State) (w : Word) : ChangesOnly { i := true } s (s.setI w) := by
  constructor <;> simp

/-- R136: the move of I adds I to what was changed. -/
theorem ChangesOnly.advanceI {e : Effects} {s t : State} (h : ChangesOnly e s t) (x : Reg) :
    ChangesOnly { e with i := true } s (t.advanceI x) where
  regs r hr := (t.advanceI_reg x r).trans (h.regs r hr)
  i moved := nomatch moved
  sp hs := (t.advanceI_sp x).trans (h.sp hs)
  slots hs k := (t.advanceI_slot x k).trans (h.slots hs k)
  dt hd := (t.advanceI_dt x).trans (h.dt hd)
  st hs := (t.advanceI_st x).trans (h.st hs)
  fb hf := (t.advanceI_fb x).trans (h.fb hf)
  rndIn hr := (t.advanceI_rndIn x).trans (h.rndIn hr)
  rndUsed hr := (t.advanceI_rndUsed x).trans (h.rndUsed hr)
  mem a ha := (t.advanceI_readByte x a).trans (h.mem a ha)
  key := (t.advanceI_key x).trans h.key
  stop := (t.advanceI_stop x).trans h.stop
  fr := (t.advanceI_fr x).trans h.fr
  cfg := (t.advanceI_cfg x).trans h.cfg
  started := (t.advanceI_started x).trans h.started
  agenda := (t.advanceI_agenda x).trans h.agenda

/-- R136, by `BLOCK_I_MODE`, wherever the transfer itself leaves I alone. -/
theorem blockAdvances_advanceI {s t : State} (hi : t.i = s.i) (hcfg : t.cfg = s.cfg) (x : Reg) :
    BlockAdvances x s (t.advanceI x) := by
  refine ⟨fun unchanged => ?_, fun advance => ?_⟩
  · simp [State.advanceI_i, hcfg, unchanged, hi]
  · simp [State.advanceI_i, hcfg, advance, hi]

theorem BlockAdvances.goto {s t : State} {x : Reg} (h : BlockAdvances x s t) (p : Word) : BlockAdvances x s (t.goto p) := h

/-- What an instruction does that writes I alone. -/
theorem setsI_of_exec {j : Instr} {s : State} {w : Word} {address : Nat}
    (answer : exec j s = .next ((s.setI w).goto (s.pc + 2))) (value : w.toNat = address) :
    ∃ t, exec j s = .next t ∧ RetiresTo (s.pc + 2) t ∧ t.i.toNat = address ∧ ChangesOnly { i := true } s t :=
  ⟨_, answer, retiresTo_goto _ _, value, (changesOnly_setI s w).goto _⟩

/-! ### Runs of bytes and blocks of registers -/

/-- Byte `k` of a run stored inside memory reads back at `a + k`. -/
theorem State.readByte_storeBytes_add {s : State} (wf : s.memWf) (a : Nat) (bs : List Byte) (room : a + bs.length ≤ 4096)
    {k : Nat} (hk : k < bs.length) : (s.storeBytes a bs).readByte (a + k) = bs[k] := by
  rw [State.readByte_storeBytes wf a bs room, dif_pos (by omega)]
  simp

theorem changesOnly_storeBytes {s : State} (wf : s.memWf) (a : Nat) (bs : List Byte) (room : a + bs.length ≤ 4096) :
    ChangesOnly { memAt := a, memLen := bs.length } s (s.storeBytes a bs) := by
  have outside (k : Nat) (hk : ¬ (a ≤ k ∧ k < a + bs.length)) : (s.storeBytes a bs).readByte k = s.readByte k := by
    rw [State.readByte_storeBytes wf a bs room, dif_neg hk]
  constructor
  case mem => exact outside
  all_goals simp

theorem mem_regsTo {x r : Reg} : r ∈ regsTo x ↔ r ≤ x := by simp [regsTo]

theorem changesOnly_setRegsUpTo (s : State) (x : Reg) (f : Nat → Byte) :
    ChangesOnly { regs := regsTo x } s (s.setRegsUpTo x f) := by
  constructor <;> simp +contextual [State.reg_setRegsUpTo, mem_regsTo]

/-- The bytes FX33 stores are the decimal digits, each far below 256 (R133). -/
theorem decimalDigits_toNat (b : Byte) (k : Fin 3) : (decimalDigits b)[k.val].toNat = DigitOf b k := by
  have hb : b.toNat < 256 := b.isLt
  match k with
  | 0 => exact Nat.mod_eq_of_lt (show b.toNat / 100 < 256 by omega)
  | 1 => exact Nat.mod_eq_of_lt (show b.toNat / 10 % 10 < 256 by omega)
  | 2 => exact Nat.mod_eq_of_lt (show b.toNat % 10 < 256 by omega)

/-! ### Answers -/

/-- Where the pc has not moved since `s`, the advance is the one of `s` (R90). -/
theorem State.advance_eq_goto {s t : State} (h : t.pc = s.pc) : t.advance = t.goto (s.pc + 2) := by
  rw [State.advance, h]

section
variable (s : State) (x : Reg)

theorem exec_ldI (nnn : BitVec 12) : exec (.ldI nnn) s = .next ((s.setI (zextAddr nnn)).goto (s.pc + 2)) := rfl

theorem exec_addI : exec (.addI x) s = .next ((s.setI (s.i + zextByte (s.reg x))).goto (s.pc + 2)) := rfl

theorem exec_ldF : exec (.ldF x) s =
    .next ((s.setI (BitVec.ofNat 16 (s.cfg.fontBase + 5 * (s.reg x).toNat))).goto (s.pc + 2)) := rfl

variable {s x}

theorem exec_ldB_of_outside (h : s.i.toNat + 2 ≥ 4096) :
    exec (.ldB x) s = .next (s.raiseBy .outOfBoundsWrite (.ldB x)) := if_pos h

theorem exec_ldB_of_inside (h : s.i.toNat + 2 < 4096) :
    exec (.ldB x) s = .next ((s.storeBytes s.i.toNat (decimalDigits (s.reg x))).goto (s.pc + 2)) :=
  (if_neg (Nat.not_le.2 h)).trans (congrArg Host.Outcome.next (State.advance_eq_goto (by simp)))

theorem exec_ldMemVx_of_outside (h : s.i.toNat + x.val ≥ 4096) :
    exec (.ldMemVx x) s = .next (s.raiseBy .outOfBoundsWrite (.ldMemVx x)) := if_pos h

theorem exec_ldMemVx_of_inside (h : s.i.toNat + x.val < 4096) :
    exec (.ldMemVx x) s = .next (((s.storeBytes s.i.toNat (s.regsUpTo x)).advanceI x).goto (s.pc + 2)) :=
  (if_neg (Nat.not_le.2 h)).trans (congrArg Host.Outcome.next (State.advance_eq_goto (by simp)))

theorem exec_ldVxMem_of_outside (h : s.i.toNat + x.val ≥ 4096) :
    exec (.ldVxMem x) s = .next (s.raiseBy .outOfBoundsRead (.ldVxMem x)) := if_pos h

theorem exec_ldVxMem_of_inside (h : s.i.toNat + x.val < 4096) :
    exec (.ldVxMem x) s =
      .next (((s.setRegsUpTo x fun k => s.readByte (s.i.toNat + k)).advanceI x).goto (s.pc + 2)) :=
  (if_neg (Nat.not_le.2 h)).trans (congrArg Host.Outcome.next (State.advance_eq_goto (by simp)))

end

/-! ### The statements -/

/-- Settles O41: each writes I alone, and the two sums wrap at 16 bits. -/
theorem addressRegisterInstructions : Obligations.AddressRegisterInstructions := by
  refine fun x nnn => ⟨decode_encode (i := .ldI nnn) rfl, decode_encode (i := .addI x) rfl, decode_encode (i := .ldF x) rfl,
    fun s => ⟨?_, ?_, ?_⟩⟩
  · exact setsI_of_exec (exec_ldI s nnn) (zextAddr_toNat nnn)
  · have sum : (s.i + zextByte (s.reg x)).toNat = (s.i.toNat + (s.reg x).toNat) % 65536 := by
      rw [BitVec.toNat_add, zextByte_toNat]
    exact setsI_of_exec (exec_addI s x) sum
  · exact setsI_of_exec (exec_ldF s x) (BitVec.toNat_ofNat _ _)

/-- Settles O42, by whether the last digit falls inside memory. -/
theorem bcdStoresThreeDigits : Obligations.BcdStoresThreeDigits := by
  refine fun x => ⟨decode_encode (i := .ldB x) rfl, fun s => ⟨fun outside => ?_, fun wf inside => ?_⟩⟩
  · exact ⟨_, exec_ldB_of_outside outside, faultsWith_raiseBy _ (.ldB x) s⟩
  · have room : s.i.toNat + (decimalDigits (s.reg x)).length ≤ 4096 := inside
    have digit (k : Fin 3) : (((s.storeBytes s.i.toNat (decimalDigits (s.reg x))).goto (s.pc + 2)).readByte
        (s.i.toNat + k.val)).toNat = DigitOf (s.reg x) k := by
      have hk : k.val < (decimalDigits (s.reg x)).length := k.isLt
      rw [State.goto_readByte, State.readByte_storeBytes_add wf _ _ room hk, decimalDigits_toNat]
    exact ⟨_, exec_ldB_of_inside inside, retiresTo_goto _ _, digit 0, digit 1, digit 2,
      (changesOnly_storeBytes wf _ _ room).goto _⟩

/-- Settles O43, by whether the last register's byte falls inside memory. -/
theorem blockStoreWritesMemory : Obligations.BlockStoreWritesMemory := by
  refine fun x => ⟨decode_encode (i := .ldMemVx x) rfl, fun s => ⟨fun outside => ?_, fun wf inside => ?_⟩⟩
  · exact ⟨_, exec_ldMemVx_of_outside outside, faultsWith_raiseBy _ (.ldMemVx x) s⟩
  · have length : (s.regsUpTo x).length = x.val + 1 := s.regsUpTo_length x
    have room : s.i.toNat + (s.regsUpTo x).length ≤ 4096 := by omega
    have stored (k : Reg) (hk : k ≤ x) :
        (((s.storeBytes s.i.toNat (s.regsUpTo x)).advanceI x).goto (s.pc + 2)).readByte (s.i.toNat + k.val) = s.reg k := by
      have hk' : k.val ≤ x.val := hk
      rw [State.goto_readByte, State.advanceI_readByte, State.readByte_storeBytes_add wf _ _ room (by omega),
        State.regsUpTo_getElem s x k hk]
    have frame := ((changesOnly_storeBytes wf _ _ room).advanceI x).goto (s.pc + 2)
    rw [length] at frame
    exact ⟨_, exec_ldMemVx_of_inside inside, retiresTo_goto _ _, stored,
      (blockAdvances_advanceI (by simp) (by simp) x).goto _, frame⟩

/-- Settles O44, by whether the last byte read is inside memory. -/
theorem blockLoadReadsMemory : Obligations.BlockLoadReadsMemory := by
  refine fun x => ⟨decode_encode (i := .ldVxMem x) rfl, fun s => ⟨fun outside => ?_, fun inside => ?_⟩⟩
  · exact ⟨_, exec_ldVxMem_of_outside outside, faultsWith_raiseBy _ (.ldVxMem x) s⟩
  · have loaded (k : Reg) (hk : k ≤ x) :
        (((s.setRegsUpTo x fun k => s.readByte (s.i.toNat + k)).advanceI x).goto (s.pc + 2)).reg k =
          s.readByte (s.i.toNat + k.val) := by
      rw [State.goto_reg, State.advanceI_reg, State.reg_setRegsUpTo, if_pos hk]
    exact ⟨_, exec_ldVxMem_of_inside inside, retiresTo_goto _ _, loaded,
      (blockAdvances_advanceI (by simp) (by simp) x).goto _, ((changesOnly_setRegsUpTo s x _).advanceI x).goto _⟩

end Sys2Proof.Machine
end

section
/-! PROOF. The timer and key instructions: the frame of a timer write, the comparison with KEY, what each instruction answers, then
the statements (43_timers_keys.md rules R150 to R152, R155 and R156). -/

namespace Sys2Proof.Machine

/-! ### Timer writes and the pressed key -/

theorem changesOnly_setDT (s : State) (b : Byte) : ChangesOnly { dt := true } s (s.setDT b) := by
  constructor <;> simp

theorem changesOnly_setST (s : State) (b : Byte) : ChangesOnly { st := true } s (s.setST b) := by
  constructor <;> simp

/-- R155: KEY = none is no byte's key, and a byte above 15 is no key's. -/
theorem State.keyIs_iff (s : State) (b : Byte) : s.keyIs b = true ↔ ∃ k, s.key = some k ∧ k.val = b.toNat := by
  rcases hkey : s.key with _ | k <;> simp [State.keyIs, hkey]

/-! ### Answers -/

section
variable (s : State) (x : Reg)

theorem exec_ldVxDt : exec (.ldVxDt x) s = .next ((s.setReg x s.dt).goto (s.pc + 2)) := rfl

theorem exec_ldDtVx : exec (.ldDtVx x) s = .next ((s.setDT (s.reg x)).goto (s.pc + 2)) := rfl

theorem exec_ldStVx : exec (.ldStVx x) s = .next ((s.setST (s.reg x)).goto (s.pc + 2)) := rfl

theorem exec_skp : exec (.skp x) s = .next (s.goto (if s.keyIs (s.reg x) then s.pc + 4 else s.pc + 2)) :=
  congrArg Host.Outcome.next (s.skipIf_eq_goto _)

theorem exec_sknp : exec (.sknp x) s = .next (s.goto (if s.keyIs (s.reg x) then s.pc + 2 else s.pc + 4)) := by
  cases h : s.keyIs (s.reg x) <;> simp [exec, execSknp, State.skipIf_eq_goto, h]

end

/-! ### The statements -/

/-- Settles O47: FX07 is a register load of DT; the two others write one timer each. -/
theorem timerInstructions : Obligations.TimerInstructions := by
  refine fun x => ⟨decode_encode (i := .ldVxDt x) rfl, decode_encode (i := .ldDtVx x) rfl, decode_encode (i := .ldStVx x) rfl,
    fun s => ⟨?_, ?_, ?_⟩⟩
  · exact loads_of_exec (exec_ldVxDt s x)
  · exact ⟨_, exec_ldDtVx s x, retiresTo_goto _ _, rfl, (changesOnly_setDT s (s.reg x)).goto _⟩
  · exact ⟨_, exec_ldStVx s x, retiresTo_goto _ _, rfl, (changesOnly_setST s (s.reg x)).goto _⟩

/-- Settles O48: each skip is a goto to the target that the comparison with KEY picks. -/
theorem skipsOnTheKey : Obligations.SkipsOnTheKey := by
  refine fun x => ⟨decode_encode (i := .skp x) rfl, decode_encode (i := .sknp x) rfl, fun s =>
    ⟨_, _, exec_skp s x, exec_sknp s x, changesOnly_goto s _, changesOnly_goto s _, ?_⟩⟩
  rw [← State.keyIs_iff]
  refine ⟨fun pressed => ?_, fun notPressed => ?_⟩
  · rw [if_pos pressed, if_pos pressed]
    exact ⟨retiresTo_goto s _, retiresTo_goto s _⟩
  · rw [if_neg notPressed, if_neg notPressed]
    exact ⟨retiresTo_goto s _, retiresTo_goto s _⟩

end Sys2Proof.Machine
end

section
/-! PROOF. The decoder over all words: fields and masks as numbers, what a row's hit says of the word, that encoding undoes decoding,
which words are illegal and which match two rows (30_encoding.md rules R71, R73 to R78). -/

namespace Sys2Proof

/-! ### Formats and fields as numbers (R71) -/

theorem append_toNat {m n : Nat} (a : BitVec m) (b : BitVec n) : (a ++ b).toNat = a.toNat * 2 ^ n + b.toNat := by
  rw [BitVec.toNat_append, ← Nat.shiftLeft_add_eq_or_of_lt b.isLt, Nat.shiftLeft_eq]

section
variable (op : BitVec 4) (x y : Reg) (n : BitVec 4) (kk : Byte) (nnn : BitVec 12) (w : Word)

theorem wordXyn_toNat : (wordXyn op x y n).toNat = op.toNat * 4096 + x.val * 256 + y.val * 16 + n.toNat := by
  simp only [wordXyn, append_toNat, BitVec.toNat_ofFin]
  omega

theorem wordXkk_toNat : (wordXkk op x kk).toNat = op.toNat * 4096 + x.val * 256 + kk.toNat := by
  simp only [wordXkk, append_toNat, BitVec.toNat_ofFin]
  omega

theorem wordNnn_toNat : (wordNnn op nnn).toNat = op.toNat * 4096 + nnn.toNat := append_toNat op nnn

theorem extractLsb'_toNat_eq_div_mod (start len : Nat) :
    (w.extractLsb' start len).toNat = w.toNat / 2 ^ start % 2 ^ len := by
  rw [BitVec.extractLsb'_toNat, Nat.shiftRight_eq_div_pow]

theorem fieldsOf_x_val : (fieldsOf w).x.val = w.toNat / 256 % 16 := extractLsb'_toNat_eq_div_mod w 8 4

theorem fieldsOf_y_val : (fieldsOf w).y.val = w.toNat / 16 % 16 := extractLsb'_toNat_eq_div_mod w 4 4

theorem fieldsOf_n_toNat : (fieldsOf w).n.toNat = w.toNat % 16 :=
  (extractLsb'_toNat_eq_div_mod w 0 4).trans (congrArg (· % 16) (Nat.div_one _))

theorem fieldsOf_kk_toNat : (fieldsOf w).kk.toNat = w.toNat % 256 :=
  (extractLsb'_toNat_eq_div_mod w 0 8).trans (congrArg (· % 256) (Nat.div_one _))

theorem fieldsOf_nnn_toNat : (fieldsOf w).nnn.toNat = w.toNat % 4096 :=
  (extractLsb'_toNat_eq_div_mod w 0 12).trans (congrArg (· % 4096) (Nat.div_one _))
end

/-! ### A word put together again from its fields -/

section
variable {op n : BitVec 4} {kk : Byte} {w : Word}

theorem wordNnn_fieldsOf (hop : w.toNat / 4096 = op.toNat) : wordNnn op (fieldsOf w).nnn = w := by
  refine BitVec.eq_of_toNat_eq ?_
  rw [wordNnn_toNat, fieldsOf_nnn_toNat]
  omega

theorem wordXkk_fieldsOf (hop : w.toNat / 4096 = op.toNat) : wordXkk op (fieldsOf w).x (fieldsOf w).kk = w := by
  refine BitVec.eq_of_toNat_eq ?_
  rw [wordXkk_toNat, fieldsOf_x_val, fieldsOf_kk_toNat]
  omega

/-- The low byte is fixed by the opcode: `EXkk` and `FXkk`. -/
theorem wordXkk_fieldsOf_x (h : w.toNat / 4096 = op.toNat ∧ w.toNat % 256 = kk.toNat) :
    wordXkk op (fieldsOf w).x kk = w := by
  refine BitVec.eq_of_toNat_eq ?_
  rw [wordXkk_toNat, fieldsOf_x_val]
  omega

theorem wordXyn_fieldsOf (hop : w.toNat / 4096 = op.toNat) :
    wordXyn op (fieldsOf w).x (fieldsOf w).y (fieldsOf w).n = w := by
  refine BitVec.eq_of_toNat_eq ?_
  rw [wordXyn_toNat, fieldsOf_x_val, fieldsOf_y_val, fieldsOf_n_toNat]
  omega

/-- The low nibble is fixed by the opcode: `5XY0`, `8XYn` and `9XY0`. -/
theorem wordXyn_fieldsOf_xy (h : w.toNat / 4096 = op.toNat ∧ w.toNat % 16 = n.toNat) :
    wordXyn op (fieldsOf w).x (fieldsOf w).y n = w := by
  refine BitVec.eq_of_toNat_eq ?_
  rw [wordXyn_toNat, fieldsOf_x_val, fieldsOf_y_val]
  omega
end

/-! ### The masks as numbers, and what a hit says (R73) -/

section
variable (w : Word)

theorem and_F000_toNat : (w &&& 0xF000).toNat = w.toNat / 4096 * 4096 := by
  have word : wordNnn (w.extractLsb' 12 4) (fieldsOf w).nnn = w :=
    wordNnn_fieldsOf (by rw [extractLsb'_toNat_eq_div_mod]; omega)
  have mask := congrArg BitVec.toNat (wordNnn_and_F000 (w.extractLsb' 12 4) (fieldsOf w).nnn)
  rw [word, wordNnn_toNat, extractLsb'_toNat_eq_div_mod] at mask
  exact mask.trans (by simp; omega)

theorem and_F0FF_toNat : (w &&& 0xF0FF).toNat = w.toNat / 4096 * 4096 + w.toNat % 256 := by
  have word : wordXkk (w.extractLsb' 12 4) (fieldsOf w).x (fieldsOf w).kk = w :=
    wordXkk_fieldsOf (by rw [extractLsb'_toNat_eq_div_mod]; omega)
  have mask := congrArg BitVec.toNat (wordXkk_and_F0FF (w.extractLsb' 12 4) (fieldsOf w).x (fieldsOf w).kk)
  rw [word, wordXkk_toNat, extractLsb'_toNat_eq_div_mod, fieldsOf_kk_toNat] at mask
  exact mask.trans (by simp; omega)

theorem and_F00F_toNat : (w &&& 0xF00F).toNat = w.toNat / 4096 * 4096 + w.toNat % 16 := by
  have word : wordXyn (w.extractLsb' 12 4) (fieldsOf w).x (fieldsOf w).y (fieldsOf w).n = w :=
    wordXyn_fieldsOf (by rw [extractLsb'_toNat_eq_div_mod]; omega)
  have mask := congrArg BitVec.toNat
    (wordXyn_and_F00F (w.extractLsb' 12 4) (fieldsOf w).x (fieldsOf w).y (fieldsOf w).n)
  rw [word, wordXyn_toNat, extractLsb'_toNat_eq_div_mod, fieldsOf_n_toNat] at mask
  exact mask.trans (by simp; omega)
end

section
variable {p w : Word} {build : Fields → Instr}

theorem hits_FFFF_iff : DecodeRow.hits ⟨p, 0xFFFF, build⟩ w = true ↔ w = p := by
  have all (v : Word) : v &&& 0xFFFF = v := BitVec.and_allOnes
  simp only [DecodeRow.hits, all, beq_iff_eq]

theorem hits_F000_iff : DecodeRow.hits ⟨p, 0xF000, build⟩ w = true ↔ w.toNat / 4096 = p.toNat / 4096 := by
  simp only [DecodeRow.hits, beq_iff_eq, BitVec.toNat_eq, and_F000_toNat]
  omega

theorem hits_F0FF_iff : DecodeRow.hits ⟨p, 0xF0FF, build⟩ w = true ↔
    w.toNat / 4096 = p.toNat / 4096 ∧ w.toNat % 256 = p.toNat % 256 := by
  simp only [DecodeRow.hits, beq_iff_eq, BitVec.toNat_eq, and_F0FF_toNat]
  omega

theorem hits_F00F_iff : DecodeRow.hits ⟨p, 0xF00F, build⟩ w = true ↔
    w.toNat / 4096 = p.toNat / 4096 ∧ w.toNat % 16 = p.toNat % 16 := by
  simp only [DecodeRow.hits, beq_iff_eq, BitVec.toNat_eq, and_F00F_toNat]
  omega
end

/-! ### Encoding undoes decoding -/

/-- Row by row of R74: the instruction a row builds from a word it hits has that word, so no bit is dropped. -/
theorem encode_build_of_hits : ∀ row ∈ decodeTable, ∀ w, row.hits w = true → encode (row.build (fieldsOf w)) = w := by
  simp only [decodeTable, decodeTableControl, decodeTableAlu, decodeTableMisc, decodeTableF, List.cons_append,
    List.nil_append, List.forall_mem_cons]
  exact
    ⟨fun _ h => (hits_FFFF_iff.1 h).symm, fun _ h => (hits_FFFF_iff.1 h).symm, fun _ h => (hits_FFFF_iff.1 h).symm,
     fun _ h => wordNnn_fieldsOf (hits_F000_iff.1 h), -- SYS
     fun _ h => wordNnn_fieldsOf (hits_F000_iff.1 h), fun _ h => wordNnn_fieldsOf (hits_F000_iff.1 h), -- JP, CALL
     fun _ h => wordXkk_fieldsOf (hits_F000_iff.1 h), fun _ h => wordXkk_fieldsOf (hits_F000_iff.1 h), -- SE, SNE
     fun _ h => wordXyn_fieldsOf_xy (hits_F00F_iff.1 h),
     fun _ h => wordXkk_fieldsOf (hits_F000_iff.1 h), fun _ h => wordXkk_fieldsOf (hits_F000_iff.1 h), -- LD, ADD
     fun _ h => wordXyn_fieldsOf_xy (hits_F00F_iff.1 h), fun _ h => wordXyn_fieldsOf_xy (hits_F00F_iff.1 h), -- 8XYn
     fun _ h => wordXyn_fieldsOf_xy (hits_F00F_iff.1 h), fun _ h => wordXyn_fieldsOf_xy (hits_F00F_iff.1 h),
     fun _ h => wordXyn_fieldsOf_xy (hits_F00F_iff.1 h), fun _ h => wordXyn_fieldsOf_xy (hits_F00F_iff.1 h),
     fun _ h => wordXyn_fieldsOf_xy (hits_F00F_iff.1 h), fun _ h => wordXyn_fieldsOf_xy (hits_F00F_iff.1 h),
     fun _ h => wordXyn_fieldsOf_xy (hits_F00F_iff.1 h),
     fun _ h => wordXyn_fieldsOf_xy (hits_F00F_iff.1 h), -- 9XY0
     fun _ h => wordNnn_fieldsOf (hits_F000_iff.1 h), fun _ h => wordNnn_fieldsOf (hits_F000_iff.1 h), -- LD I, JP V0
     fun _ h => wordXkk_fieldsOf (hits_F000_iff.1 h), fun _ h => wordXyn_fieldsOf (hits_F000_iff.1 h), -- RND, DRW
     fun _ h => wordXkk_fieldsOf_x (hits_F0FF_iff.1 h), fun _ h => wordXkk_fieldsOf_x (hits_F0FF_iff.1 h), -- EXkk
     fun _ h => wordXkk_fieldsOf_x (hits_F0FF_iff.1 h), fun _ h => wordXkk_fieldsOf_x (hits_F0FF_iff.1 h), -- FXkk
     fun _ h => wordXkk_fieldsOf_x (hits_F0FF_iff.1 h), fun _ h => wordXkk_fieldsOf_x (hits_F0FF_iff.1 h),
     fun _ h => wordXkk_fieldsOf_x (hits_F0FF_iff.1 h), fun _ h => wordXkk_fieldsOf_x (hits_F0FF_iff.1 h),
     fun _ h => wordXkk_fieldsOf_x (hits_F0FF_iff.1 h), fun _ h => wordXkk_fieldsOf_x (hits_F0FF_iff.1 h),
     fun _ h => wordXkk_fieldsOf_x (hits_F0FF_iff.1 h), by simp⟩

theorem encode_of_decode {w : Word} {i : Instr} (h : decode w = some i) : encode i = w := by
  obtain ⟨row, found, rfl⟩ := Option.map_eq_some_iff.1 h
  have hits : row.hits w = true := List.find?_some (p := fun row : DecodeRow => row.hits w) found
  exact encode_build_of_hits row (List.mem_of_find?_eq_some found) w hits

/-- An ill-formed SYS has the word of CLS, RET or NULL, which decodes to that instruction (R75). -/
theorem wf_of_decode {w : Word} {i : Instr} (h : decode w = some i) : i.wf = true := by
  cases i
  case sys nnn =>
    have other {v : BitVec 12} (hv : decode (encode (.sys v)) ≠ some (.sys v)) : nnn ≠ v := by
      rintro rfl
      exact hv (encode_of_decode h ▸ h)
    exact (Instr.wf_sys_iff nnn).2 ⟨other (by decide), other (by decide), other (by decide)⟩
  all_goals rfl

/-! ### Which rows hit -/

/-- A word decodes to nothing where no row hits it (R77). -/
theorem decode_eq_none_iff (w : Word) : decode w = none ↔ ∀ row ∈ decodeTable, ¬ row.hits w = true := by
  simp [decode, List.find?_eq_none]

/-- Two rows that hit one word: the earlier is a whole-word row (R75). -/
theorem word_of_two_hits {w : Word} (h : (decodeTable.filter (·.hits w)).length > 1) :
    w = 0x00E0 ∨ w = 0x00EE ∨ w = 0x0000 := by
  have apart := decodeTable_pairwise.filter (·.hits w)
  have hit : ∀ e ∈ decodeTable.filter (·.hits w), e.hits w = true := fun e he => (List.mem_filter.1 he).2
  match hrows : decodeTable.filter (·.hits w) with
  | [] => simp [hrows] at h
  | [_] => simp [hrows] at h
  | e :: f :: _ =>
    rw [hrows] at apart hit
    have he : e.hits w = true := hit e (by simp)
    have hf : f.hits w = true := hit f (by simp)
    rcases (List.pairwise_cons.1 apart).1 f (by simp) with whole | disjoint
    · exact e.word_of_hits_wholeWord he whole
    · simp [DecodeRow.overlaps_of_hits he hf] at disjoint

/-! ### The statements -/

/-- Settles O1: the fifteen words, evaluated. -/
theorem writtenWordsDecode : Obligations.WrittenWordsDecode := by
  unfold Obligations.WrittenWordsDecode
  decide

/-- Settles O2: the round trip of `decode_encode`. -/
theorem decodeOfEncodeIsIdentity : Obligations.DecodeOfEncodeIsIdentity := fun _ => decode_encode

/-- Settles O3, row by row of the table. -/
theorem encodeOfDecodeIsIdentity : Obligations.EncodeOfDecodeIsIdentity :=
  fun _ _ h => ⟨wf_of_decode h, encode_of_decode h⟩

/-- Settles O4: what is left of each opcode nibble when no row hits. -/
theorem illegalWordsAreExactly : Obligations.IllegalWordsAreExactly := by
  intro w
  have opcode : w.toNat / 4096 < 16 := by omega
  have nibble : w.toNat % 16 < 16 := by omega
  rw [decode_eq_none_iff]
  simp only [decodeTable, decodeTableControl, decodeTableAlu, decodeTableMisc, decodeTableF, List.cons_append,
    List.nil_append, List.forall_mem_cons, hits_FFFF_iff, hits_F000_iff, hits_F0FF_iff, hits_F00F_iff, BitVec.toNat_eq]
  -- only the five opcodes of R78 leave anything to show
  interval_cases quotient : w.toNat / 4096 <;> simp
  all_goals omega

/-- Settles O5: from left to right `word_of_two_hits`, from right to left the three words evaluated. -/
theorem onlyThreeWordsMatchTwoEntries : Obligations.OnlyThreeWordsMatchTwoEntries := by
  refine fun w => ⟨word_of_two_hits, ?_⟩
  rintro (rfl | rfl | rfl) <;> decide

end Sys2Proof
end

section
/-! PROOF. What an instruction can do, said once: it takes the fault whose cause holds, or holds for a key, or retires inside its own
frame. The frame then gives which instructions write what (10_state.md rules R20 to R32; 20_memory.md rule R50). -/

namespace Sys2Proof.Machine

/-! ### Bytes outside a run of stores, whatever form memory has -/

theorem cellsFind_cellsPut_of_ne {k a : Nat} (hk : k ≠ a) (b : Option Byte) (m : Memory) :
    cellsFind k (cellsPut a b m) = cellsFind k m := by
  induction m with
  | nil => rw [cellsPut, cellsFind_cellsCons, if_neg hk]
  | cons p rest ih =>
    obtain ⟨q, x⟩ := p
    unfold cellsPut
    split
    · simp only [cellsFind, ih]
    · split
      · rename_i heq
        rw [cellsFind_cellsCons, if_neg hk, cellsFind, if_neg (heq ▸ hk.symm)]
      · rw [cellsFind_cellsCons, if_neg hk]

variable {s t u : State} {j : Instr}

theorem State.readByte_writeByte_of_ne {k a : Nat} (hk : k ≠ a) (b : Byte) :
    (s.writeByte a b).readByte k = s.readByte k := by
  unfold State.writeByte
  split
  · simp only [State.readByte, cellsFind_cellsPut_of_ne hk]
  · rfl

theorem State.readByte_storeBytes_of_outside (s : State) (a : Nat) (bs : List Byte) {k : Nat}
    (hk : ¬ (a ≤ k ∧ k < a + bs.length)) : (s.storeBytes a bs).readByte k = s.readByte k := by
  induction bs generalizing s a with
  | nil => rfl
  | cons b bs ih =>
    simp only [List.length_cons] at hk
    rw [State.storeBytes, ih (s.writeByte a b) (a + 1) (by omega), State.readByte_writeByte_of_ne (by omega)]

/-- The frame of a run of stores needs neither canonical memory nor a run inside it. -/
theorem storeBytes_changesOnly (s : State) (a : Nat) (bs : List Byte) :
    ChangesOnly { memAt := a, memLen := bs.length } s (s.storeBytes a bs) := by
  constructor
  case mem => exact fun k hk => s.readByte_storeBytes_of_outside a bs hk
  all_goals simp

/-! ### The frame of each instruction -/

/-- What instruction `j` may change from `s`, beside `pc` and ES. -/
def State.effects (s : State) : Instr → Effects
  | .cls => { fb := true }
  | .ret | .call _ => { stack := true }
  | .ldImm x _ | .addImm x _ | .ldReg x _ | .orReg x _ | .andReg x _ | .xorReg x _ | .ldVxDt x | .ldVxK x => { regs := [x] }
  | .addReg x _ | .subReg x _ | .shr x _ | .subnReg x _ | .shl x _ => { regs := [x, VF] }
  | .rnd x _ => { regs := [x], random := true }
  | .drw _ _ _ => { fb := true, regs := if s.cfg.drawVf = .collision then [VF] else [] }
  | .ldI _ | .addI _ | .ldF _ => { i := true }
  | .ldB _ => { memAt := s.i.toNat, memLen := 3 }
  | .ldMemVx x => { i := decide (s.cfg.blockIMode = .advance), memAt := s.i.toNat, memLen := x.val + 1 }
  | .ldVxMem x => { i := decide (s.cfg.blockIMode = .advance), regs := regsTo x }
  | .ldDtVx _ => { dt := true }
  | .ldStVx _ => { st := true }
  | .null | .sys _ | .jp _ | .jpV0 _ | .seImm _ _ | .sneImm _ _ | .seReg _ _ | .sneReg _ _ | .skp _ | .sknp _ => {}

/-- R136 with the mode: I is added to the frame only under Advance. -/
theorem ChangesOnly.advanceI_of_mode {e : Effects} (h : ChangesOnly e s t) (x : Reg) :
    ChangesOnly { e with i := e.i || decide (s.cfg.blockIMode = .advance) } s (t.advanceI x) := by
  have mode : t.cfg = s.cfg := h.cfg
  rcases hm : s.cfg.blockIMode with _ | _
  · simpa [State.advanceI, mode, hm] using h
  · simpa [hm] using h.advanceI x

theorem changesOnly_rnd (s : State) (x : Reg) (b : Byte) :
    ChangesOnly { regs := [x], random := true } s (s.rndTaken.setReg x b) := by
  constructor <;> simp +contextual [State.reg_setReg_other]

/-- R171: VF is in the frame of DXYN only under Collision. -/
theorem changesOnly_draw (s : State) (fb : Frame) (hit : Bool) :
    ChangesOnly { fb := true, regs := if s.cfg.drawVf = .collision then [VF] else [] } s
      ((s.setFrame fb).setCollision hit) := by
  constructor
  case regs =>
    intro r hr
    rcases hd : s.cfg.drawVf with _ | _ <;> simp_all [State.reg_setCollision]
  all_goals simp

/-! ### Answers of the instructions not met so far -/

section
variable (s) (x y : Reg) (n : BitVec 4)

theorem exec_rnd (kk : Byte) :
    exec (.rnd x kk) s = .next ((s.rndTaken.setReg x (s.rndByte &&& kk)).goto (s.pc + 2)) :=
  congrArg Host.Outcome.next (State.advance_eq_goto (by simp))

theorem exec_drw_of_outside (h : s.i.toNat + n.toNat > 4096) :
    exec (.drw x y n) s = .next (s.raiseBy .outOfBoundsRead (.drw x y n)) := if_pos h

theorem exec_drw_of_inside (h : s.i.toNat + n.toNat ≤ 4096) :
    exec (.drw x y n) s =
      .next (((s.setFrame (s.drawn x y n)).setCollision (Frame.erasedSome s.fb (s.drawn x y n))).goto (s.pc + 2)) :=
  (if_neg (Nat.not_lt.2 h)).trans (congrArg Host.Outcome.next (State.advance_eq_goto (by simp)))

variable {s}

theorem exec_ldVxK_of_none (h : s.key = none) : exec (.ldVxK x) s = .next s.hold := by
  simp [exec, execLdVxK, h]

theorem exec_ldVxK_of_some {k : Key} (h : s.key = some k) :
    exec (.ldVxK x) s = .next ((s.setReg x (byteOfKey k)).goto (s.pc + 2)) := by
  simp [exec, execLdVxK, h, State.advance]
end

/-! ### The three ways an instruction ends -/

/-- The fault that instruction `j` takes from `s`, where it takes one (R180). -/
def State.faultOf (s : State) : Instr → Option FaultCode
  | .ret => if s.sp.val = 0 then some .stackUnderflow else none
  | .null => if s.cfg.zeroWordPolicy = .fatal then some .nullInstruction else none
  | .call _ => if s.sp.val = 16 then some .stackOverflow else none
  | .drw _ _ n => if s.i.toNat + n.toNat > 4096 then some .outOfBoundsRead else none
  | .ldB _ => if s.i.toNat + 2 ≥ 4096 then some .outOfBoundsWrite else none
  | .ldMemVx x => if s.i.toNat + x.val ≥ 4096 then some .outOfBoundsWrite else none
  | .ldVxMem x => if s.i.toNat + x.val ≥ 4096 then some .outOfBoundsRead else none
  | _ => none

/-- FX0A finds no key (R157). -/
def State.HoldsAt (s : State) (j : Instr) : Prop := s.key = none ∧ ∃ x, j = .ldVxK x

/-- The targets of a pc that an instruction sets: the advance, the skip, a jump's own target (R24), or after a CALL (R94). -/
inductive State.Reaches (s : State) : Word → Prop
  | advance : s.Reaches (s.pc + 2)
  | skip : s.Reaches (s.pc + 4)
  | jump {p : Word} (h : p.toNat ≤ 0x10FE) : s.Reaches p
  | back (k : Nat) : s.Reaches (s.slot k + 2)

/-- The instruction is done: what it may have changed and where it left the pc, the slots and memory. -/
structure Retires (j : Instr) (s t : State) : Prop where
  frame : ChangesOnly (s.effects j) s t
  es    : t.es = .idle
  pc    : s.Reaches t.pc
  slots : ∀ k, t.slot k = s.slot k ∨ t.slot k = s.pc
  mem   : s.memWf → t.memWf

theorem State.reaches_ite (s : State) (c : Prop) [Decidable c] : s.Reaches (if c then s.pc + 4 else s.pc + 2) := by
  split
  · exact .skip
  · exact .advance

theorem State.reaches_ite_not (s : State) (c : Prop) [Decidable c] : s.Reaches (if c then s.pc + 2 else s.pc + 4) := by
  split
  · exact .advance
  · exact .skip

/-- An answer that leaves the slots alone and writes memory by a run of stores. -/
theorem retires_of_stores {p : Word} (a : Nat) (bs : List Byte) (answer : exec j s = .next (u.goto p))
    (frame : ChangesOnly (s.effects j) s u) (pc : s.Reaches p) (stack : (s.effects j).stack = false)
    (mem : u.mem = (s.storeBytes a bs).mem) : ∃ t, exec j s = .next t ∧ Retires j s t :=
  have wf (h : s.memWf) : (u.goto p).memWf :=
    State.memWf_of_eq (frame.cfg.trans (by simp)) mem (State.storeBytes_memWf a bs h)
  ⟨u.goto p, answer, frame.goto p, rfl, pc, fun k => .inl ((frame.goto p).slots stack k), wf⟩

/-- An answer that writes neither the slots nor memory. -/
theorem retires_of_goto {p : Word} (answer : exec j s = .next (u.goto p)) (frame : ChangesOnly (s.effects j) s u)
    (pc : s.Reaches p) (stack : (s.effects j).stack = false) (mem : u.mem = s.mem) :
    ∃ t, exec j s = .next t ∧ Retires j s t :=
  retires_of_stores 0 [] answer frame pc stack mem

/-- Slot 0 is no slot of the spec: it reads as S[1]. -/
theorem State.push_slot_cases (s : State) (w : Word) (k : Nat) : (s.push w).slot k = s.slot k ∨ (s.push w).slot k = w := by
  by_cases room : s.sp.val < 16
  · have cases_of_pos {k : Nat} (hk : 1 ≤ k) : (s.push w).slot k = s.slot k ∨ (s.push w).slot k = w := by
      rw [State.push_slot s w room hk]
      split
      · exact .inr rfl
      · exact .inl rfl
    match k with
    | 0 => exact cases_of_pos (k := 1) (Nat.le_refl 1)
    | k + 1 => exact cases_of_pos (k := k + 1) (Nat.succ_pos k)
  · exact .inl (by rw [State.push, dif_neg room])

theorem exec_of_fault {f : FaultCode} (h : s.faultOf j = some f) : exec j s = .next (s.raiseBy f j) := by
  cases j <;> simp only [State.faultOf, Option.ite_none_right_eq_some, Option.some.injEq, reduceCtorEq] at h
  all_goals obtain ⟨cause, rfl⟩ := h
  case ret => exact exec_ret_of_empty s cause
  case null => exact exec_null_of_fatal s cause
  case call => exact exec_call_of_full s _ cause
  case drw => exact exec_drw_of_outside s _ _ _ cause
  case ldB => exact exec_ldB_of_outside cause
  case ldMemVx => exact exec_ldMemVx_of_outside cause
  case ldVxMem => exact exec_ldVxMem_of_outside cause

theorem exec_of_holdsAt (h : s.HoldsAt j) : exec j s = .next s.hold := by
  obtain ⟨key, x, rfl⟩ := h
  exact exec_ldVxK_of_none x key

theorem exec_retires (fault : s.faultOf j = none) (key : ¬ s.HoldsAt j) : ∃ t, exec j s = .next t ∧ Retires j s t := by
  cases j <;> simp only [State.faultOf, ite_eq_right_iff, reduceCtorEq, imp_false, not_le, not_lt] at fault
  case cls => exact retires_of_goto (exec_cls s) (changesOnly_setFrame s _) .advance rfl rfl
  case ret =>
    have frame := (changesOnly_pop s).goto (s.slot s.sp.val + 2)
    exact ⟨_, exec_ret_of_nonempty s fault, frame, rfl, .back _, fun k => .inl (by simp), id⟩
  case null =>
    have nop : s.cfg.zeroWordPolicy = .nop := by cases hp : s.cfg.zeroWordPolicy <;> simp_all
    exact retires_of_goto (exec_null_of_nop s nop) (.refl _ s) .advance rfl rfl
  case sys nnn => exact retires_of_goto (exec_sys s nnn) (.refl _ s) .advance rfl rfl
  case jp nnn =>
    have low : (zextAddr nnn).toNat ≤ 0x10FE := by rw [zextAddr_toNat]; omega
    exact retires_of_goto (exec_jp s nnn) (.refl _ s) (.jump low) rfl rfl
  case call nnn =>
    have low : (zextAddr nnn).toNat ≤ 0x10FE := by rw [zextAddr_toNat]; omega
    exact ⟨_, exec_call_of_not_full s nnn fault, (changesOnly_push s s.pc).goto _, rfl, .jump low,
      fun k => by simpa using s.push_slot_cases s.pc k, State.memWf_of_eq (by simp) (by simp)⟩
  case jpV0 nnn =>
    have low : (zextAddr nnn + zextByte (s.reg 0)).toNat ≤ 0x10FE := by
      have := (s.reg 0).isLt
      rw [zextAddr_add_zextByte_toNat]
      omega
    exact retires_of_goto (exec_jpV0 s nnn) (.refl _ s) (.jump low) rfl rfl
  case seImm x kk => exact retires_of_goto (exec_seImm s x kk) (.refl _ s) (s.reaches_ite _) rfl rfl
  case sneImm x kk => exact retires_of_goto (exec_sneImm s x kk) (.refl _ s) (s.reaches_ite_not _) rfl rfl
  case seReg x y => exact retires_of_goto (exec_seReg s x y) (.refl _ s) (s.reaches_ite _) rfl rfl
  case sneReg x y => exact retires_of_goto (exec_sneReg s x y) (.refl _ s) (s.reaches_ite_not _) rfl rfl
  case ldImm x kk => exact retires_of_goto (exec_ldImm s x kk) (changesOnly_setReg s x _) .advance rfl rfl
  case addImm x kk => exact retires_of_goto (exec_addImm s x kk) (changesOnly_setReg s x _) .advance rfl rfl
  case ldReg x y => exact retires_of_goto (exec_ldReg s x y) (changesOnly_setReg s x _) .advance rfl rfl
  case orReg x y => exact retires_of_goto (exec_orReg s x y) (changesOnly_setReg s x _) .advance rfl rfl
  case andReg x y => exact retires_of_goto (exec_andReg s x y) (changesOnly_setReg s x _) .advance rfl rfl
  case xorReg x y => exact retires_of_goto (exec_xorReg s x y) (changesOnly_setReg s x _) .advance rfl rfl
  case addReg x y => exact retires_of_goto (exec_addReg s x y) (changesOnly_writeback s x _ _) .advance rfl (by simp)
  case subReg x y => exact retires_of_goto (exec_subReg s x y) (changesOnly_writeback s x _ _) .advance rfl (by simp)
  case shr x y => exact retires_of_goto (exec_shr s x y) (changesOnly_writeback s x _ _) .advance rfl (by simp)
  case subnReg x y => exact retires_of_goto (exec_subnReg s x y) (changesOnly_writeback s x _ _) .advance rfl (by simp)
  case shl x y => exact retires_of_goto (exec_shl s x y) (changesOnly_writeback s x _ _) .advance rfl (by simp)
  case ldI nnn => exact retires_of_goto (exec_ldI s nnn) (changesOnly_setI s _) .advance rfl rfl
  case addI x => exact retires_of_goto (exec_addI s x) (changesOnly_setI s _) .advance rfl rfl
  case ldF x => exact retires_of_goto (exec_ldF s x) (changesOnly_setI s _) .advance rfl rfl
  case rnd x kk => exact retires_of_goto (exec_rnd s x kk) (changesOnly_rnd s x _) .advance rfl (by simp)
  case drw x y n =>
    exact retires_of_goto (exec_drw_of_inside s x y n fault) (changesOnly_draw s _ _) .advance rfl (by simp)
  case skp x => exact retires_of_goto (exec_skp s x) (.refl _ s) (s.reaches_ite _) rfl rfl
  case sknp x => exact retires_of_goto (exec_sknp s x) (.refl _ s) (s.reaches_ite_not _) rfl rfl
  case ldVxDt x => exact retires_of_goto (exec_ldVxDt s x) (changesOnly_setReg s x _) .advance rfl rfl
  case ldVxK x =>
    rcases hk : s.key with _ | k
    · exact absurd ⟨hk, x, rfl⟩ key
    · exact retires_of_goto (exec_ldVxK_of_some x hk) (changesOnly_setReg s x _) .advance rfl rfl
  case ldDtVx x => exact retires_of_goto (exec_ldDtVx s x) (changesOnly_setDT s _) .advance rfl rfl
  case ldStVx x => exact retires_of_goto (exec_ldStVx s x) (changesOnly_setST s _) .advance rfl rfl
  case ldB x =>
    have frame := storeBytes_changesOnly s s.i.toNat (decimalDigits (s.reg x))
    exact retires_of_stores s.i.toNat (decimalDigits (s.reg x)) (exec_ldB_of_inside fault) frame .advance rfl rfl
  case ldMemVx x =>
    have frame := (storeBytes_changesOnly s s.i.toNat (s.regsUpTo x)).advanceI_of_mode x
    rw [State.regsUpTo_length] at frame
    exact retires_of_stores s.i.toNat (s.regsUpTo x) (exec_ldMemVx_of_inside fault) frame .advance rfl (by simp)
  case ldVxMem x =>
    exact retires_of_goto (exec_ldVxMem_of_inside fault) ((changesOnly_setRegsUpTo s x _).advanceI_of_mode x) .advance rfl
      (by simp)

/-- All an instruction that answers a next state can have done. -/
theorem exec_cases (h : exec j s = .next t) :
    (∃ f, s.faultOf j = some f ∧ t = s.raiseBy f j) ∨
    (s.faultOf j = none ∧ s.HoldsAt j ∧ t = s.hold) ∨
    (s.faultOf j = none ∧ ¬ s.HoldsAt j ∧ Retires j s t) := by
  rcases hf : s.faultOf j with _ | f
  · by_cases hk : s.HoldsAt j
    · rw [exec_of_holdsAt hk] at h
      cases h
      exact .inr (.inl ⟨rfl, hk, rfl⟩)
    · obtain ⟨t', answer, retires⟩ := exec_retires hf hk
      rw [answer] at h
      cases h
      exact .inr (.inr ⟨rfl, hk, retires⟩)
  · rw [exec_of_fault hf] at h
    cases h
    exact .inl ⟨f, rfl, rfl⟩

/-- Up to FR, which only a fault writes, no instruction leaves its frame. -/
theorem exec_frame (h : exec j s = .next t) : ChangesOnly (s.effects j) s { t with fr := s.fr } := by
  rcases exec_cases h with ⟨f, -, rfl⟩ | ⟨-, -, rfl⟩ | ⟨-, -, retires⟩
  · constructor <;> intros <;> rfl
  · constructor <;> intros <;> rfl
  · exact { retires.frame with fr := rfl }

/-! ### Which instructions have a part of the state in their frame -/

theorem mem_effects_regs {r : Reg} (h : r ∈ (s.effects j).regs) : r ∈ destinations j ∨ (r = VF ∧ WritesFlag s.cfg j) := by
  cases j <;> simp_all [State.effects, destinations, WritesFlag]

theorem effects_i (h : (s.effects j).i = true) : WritesI s.cfg j := by
  cases j <;> simp_all [State.effects, WritesI]

theorem effects_stack (h : (s.effects j).stack = true) : j = .ret ∨ ∃ nnn, j = .call nnn := by
  cases j <;> simp_all [State.effects]

theorem effects_fb (h : (s.effects j).fb = true) : j = .cls ∨ ∃ x y n, j = .drw x y n := by
  cases j <;> simp_all [State.effects]

theorem effects_dt (h : (s.effects j).dt = true) : ∃ x, j = .ldDtVx x := by
  cases j <;> simp_all [State.effects]

theorem effects_st (h : (s.effects j).st = true) : ∃ x, j = .ldStVx x := by
  cases j <;> simp_all [State.effects]

theorem effects_memLen (h : (s.effects j).memLen ≠ 0) : (∃ x, j = .ldB x) ∨ ∃ x, j = .ldMemVx x := by
  cases j <;> simp_all [State.effects]

/-! ### The statements -/

/-- Settles O18: the registers of the frame are the destinations and the flag. -/
theorem registersChangeOnlyAsDestinations : Obligations.RegistersChangeOnlyAsDestinations := by
  intro j s t r answer notDestination notFlag
  refine (exec_frame answer).regs r fun inFrame => ?_
  rcases mem_effects_regs inFrame with destination | ⟨vf, writes⟩
  · exact notDestination destination
  · exact notFlag vf writes

/-- Settles O19, by the frame of the instruction. -/
theorem addressRegisterWriters : Obligations.AddressRegisterWriters :=
  fun _ _ _ answer other => (exec_frame answer).i (Bool.eq_false_iff.2 fun inFrame => other (effects_i inFrame))

/-- Settles O20, by the frame of the instruction. -/
theorem stackWriters : Obligations.StackWriters := by
  intro j s t answer notRet notCall
  have outside : (s.effects j).stack = false := by
    refine Bool.eq_false_iff.2 fun inFrame => ?_
    rcases effects_stack inFrame with ret | ⟨nnn, call⟩
    · exact notRet ret
    · exact notCall nnn call
  exact ⟨(exec_frame answer).sp outside, (exec_frame answer).slots outside⟩

/-- Settles O21, by the frame of the instruction. -/
theorem framebufferWriters : Obligations.FramebufferWriters := by
  intro j s t answer notCls notDrw
  refine (exec_frame answer).fb (Bool.eq_false_iff.2 fun inFrame => ?_)
  rcases effects_fb inFrame with cls | ⟨x, y, n, drw⟩
  · exact notCls cls
  · exact notDrw x y n drw

/-- Settles O22, by the frame of the instruction. -/
theorem timerWriters : Obligations.TimerWriters := by
  intro j s t answer
  refine ⟨fun notDT => (exec_frame answer).dt ?_, fun notST => (exec_frame answer).st ?_⟩
  · exact Bool.eq_false_iff.2 fun inFrame => (effects_dt inFrame).elim notDT
  · exact Bool.eq_false_iff.2 fun inFrame => (effects_st inFrame).elim notST

/-- Settles O23: the frame of every other instruction holds no byte. -/
theorem memoryWriters : Obligations.MemoryWriters := by
  intro j s t answer notB notBlock a
  have noByte : (s.effects j).memLen = 0 := by
    by_contra inFrame
    rcases effects_memLen inFrame with ⟨x, ldB⟩ | ⟨x, block⟩
    · exact notB x ldB
    · exact notBlock x block
  exact (exec_frame answer).mem a (by omega)

end Sys2Proof.Machine
end

section
/-! PROOF. The step: what the engine's step answers case by case, the fault it takes, and that the invariant, the sticky parts of the
state and the parameters are kept by every step (40_control.md rule R90; 60_exceptions.md rules R180 to R196; 10_state.md). -/

namespace Sys2Proof.Machine

variable {s t : State} {j : Instr} {w : Word}

/-! ### Fetch and answers of the engine's step -/

theorem wordOfBytes_toNat (hi lo : Byte) : (wordOfBytes hi lo).toNat = hi.toNat * 256 + lo.toNat := append_toNat hi lo

theorem engineStep_of_live (h : s.Live) : engineStep s = engineAttempt s.markStarted := by
  rcases h with h | h <;> simp [engineStep, h]

theorem engineStep_of_stop (live : s.Live) (stop : s.stop = true) : engineStep s = .next s.markStarted.halt := by
  simp [engineStep_of_live live, engineAttempt, stop]

theorem engineStep_of_fetch_none (live : s.Live) (stop : s.stop = false) (fetch : s.fetch = none) :
    engineStep s = .next (s.markStarted.raise .outOfBoundsRead none) := by
  simp [engineStep_of_live live, engineAttempt, stop, fetch]

theorem engineStep_of_decode_none (live : s.Live) (stop : s.stop = false) (fetch : s.fetch = some w)
    (dec : decode w = none) : engineStep s = .next (s.markStarted.raise .unknownInstruction (some w)) := by
  simp [engineStep_of_live live, engineAttempt, stop, fetch, dec]

theorem engineStep_of_decode (live : s.Live) (stop : s.stop = false) (fetch : s.fetch = some w)
    (dec : decode w = some j) : engineStep s = exec j s.markStarted := by
  simp [engineStep_of_live live, engineAttempt, stop, fetch, dec]

theorem engineStep_of_faulted (h : s.es = .faulted) : engineStep s = .fault .engineFaulted := by
  simp [engineStep, h]

theorem engineStep_of_stopped (h : s.es = .stopped) : engineStep s = .fault .engineStopped := by
  simp [engineStep, h]

/-- R183: an engine step can be taken from Idle and Waiting only, and there it always can. -/
theorem live_iff_engineStep : s.Live ↔ ∃ t, engineStep s = .next t := by
  refine ⟨fun live => ?_, fun ⟨t, h⟩ => (engineStep_cases h).1⟩
  rcases hs : s.stop with _ | _
  · rcases hf : s.fetch with _ | w
    · exact ⟨_, engineStep_of_fetch_none live hs hf⟩
    · rcases hd : decode w with _ | j
      · exact ⟨_, engineStep_of_decode_none live hs hf hd⟩
      · rw [engineStep_of_decode live hs hf hd]
        exact exec_answers_next j s.markStarted
  · exact ⟨_, engineStep_of_stop live hs⟩

theorem ended_iff_not_live : s.Ended ↔ ¬ s.Live := by
  cases h : s.es <;> simp [State.Ended, State.Live, h]

/-! ### The fault of a step -/

/-- The fault that the engine's step takes from `s` with STOP clear, where it takes one: R184's order of checks. -/
def State.fault (s : State) : Option FaultCode :=
  match s.fetch with
  | none => some .outOfBoundsRead
  | some w =>
    match decode w with
    | none => some .unknownInstruction
    | some j => s.faultOf j

theorem State.fault_of_fetch_none (fetch : s.fetch = none) : s.fault = some .outOfBoundsRead := by
  simp [State.fault, fetch]

theorem State.fault_of_decode_none (fetch : s.fetch = some w) (dec : decode w = none) :
    s.fault = some .unknownInstruction := by
  simp [State.fault, fetch, dec]

theorem State.fault_of_decode (fetch : s.fetch = some w) (dec : decode w = some j) : s.fault = s.faultOf j := by
  simp [State.fault, fetch, dec]

theorem State.current_of_decode (fetch : s.fetch = some w) (dec : decode w = some j) : s.current = some j := by
  simp [State.current, fetch, dec]

theorem State.fault_of_current (h : s.current = some j) : s.fault = s.faultOf j := by
  obtain ⟨w, fetch, dec⟩ := Option.bind_eq_some_iff.1 h
  exact State.fault_of_decode fetch dec

/-- The rows of R180's table name the fault that the step takes, and no other. -/
theorem faultCause_iff (s : State) (f : FaultCode) : FaultCause s f ↔ s.fault = some f := by
  rcases hf : s.fetch with _ | w
  · have outside := State.fetch_none_iff.1 hf
    have noInstr : s.current = none := by simp [State.current, hf]
    cases f <;> simp [FaultCause, State.fault_of_fetch_none hf, noInstr, hf, outside]
  · have inside : ¬ s.pc.toNat + 1 ≥ 4096 := Nat.not_le.2 (State.fetch_some_lt hf)
    rcases hd : decode w with _ | j
    · have noInstr : s.current = none := by simp [State.current, hf, hd]
      cases f <;> simp [FaultCause, State.fault_of_decode_none hf hd, noInstr, hf, hd, inside]
    · have instr := State.current_of_decode hf hd
      rw [State.fault_of_decode hf hd]
      cases j <;> cases f <;> simp [FaultCause, State.faultOf, instr, hf, hd, inside]

/-! ### What the engine's step can do -/

/-- R90: the step sees STOP, or takes the fault that has its cause, or holds at FX0A, or retires the instruction at pc. -/
theorem engineStep_ends (h : engineStep s = .next t) :
    (s.stop = true ∧ t = s.markStarted.halt) ∨
    (s.stop = false ∧ ∃ f, s.fault = some f ∧ t = s.markStarted.raise f s.fetch) ∨
    (s.stop = false ∧ s.fault = none ∧ (∃ j, s.current = some j ∧ s.HoldsAt j) ∧ t = s.markStarted.hold) ∨
    (s.stop = false ∧ s.fault = none ∧ ∃ j, s.current = some j ∧ ¬ s.HoldsAt j ∧ Retires j s.markStarted t) := by
  rcases (engineStep_cases h).2 with ⟨hs, rfl⟩ | ⟨hs, hf, rfl⟩ | ⟨w, hs, hf, hd, rfl⟩ | ⟨w, j, hs, hf, hd, answer⟩
  · exact .inl ⟨hs, rfl⟩
  · exact .inr (.inl ⟨hs, _, State.fault_of_fetch_none hf, by rw [hf]⟩)
  · exact .inr (.inl ⟨hs, _, State.fault_of_decode_none hf hd, by rw [hf]⟩)
  · have instr := State.current_of_decode hf hd
    have fault := State.fault_of_decode hf hd
    rcases exec_cases answer with ⟨f, cause, rfl⟩ | ⟨clear, holds, rfl⟩ | ⟨clear, moves, retires⟩
    · exact .inr (.inl ⟨hs, f, fault.trans cause, by rw [State.raiseBy, encode_of_decode hd, hf]⟩)
    · exact .inr (.inr (.inl ⟨hs, fault.trans clear, ⟨j, instr, holds⟩, rfl⟩))
    · exact .inr (.inr (.inr ⟨hs, fault.trans clear, j, instr, moves, retires⟩))

/-- R33, R34: what the engine's step never writes, and the mark of a step taken. -/
theorem engineStep_keeps (h : engineStep s = .next t) :
    t.key = s.key ∧ t.stop = s.stop ∧ t.cfg = s.cfg ∧ t.started = true := by
  rcases (engineStep_cases h).2 with ⟨-, rfl⟩ | ⟨-, -, rfl⟩ | ⟨w, -, -, -, rfl⟩ | ⟨w, j, -, -, -, answer⟩
  · exact ⟨rfl, rfl, rfl, rfl⟩
  · exact ⟨rfl, rfl, rfl, rfl⟩
  · exact ⟨rfl, rfl, rfl, rfl⟩
  · obtain ⟨key, stop, cfg, started, -, -⟩ := exec_keeps answer
    exact ⟨key, stop, cfg, started⟩

/-- The engine's step never empties FR (R182). -/
theorem engineStep_fr_ne_none (h : engineStep s = .next t) (filled : s.fr ≠ none) : t.fr ≠ none := by
  rcases engineStep_ends h with ⟨-, rfl⟩ | ⟨-, f, -, rfl⟩ | ⟨-, -, -, rfl⟩ | ⟨-, -, j, -, -, retires⟩
  · exact filled
  · exact Option.some_ne_none _
  · exact filled
  · rwa [retires.frame.fr]

/-! ### What every action keeps -/

@[simp] theorem loadImage_es (image : List Byte) (s : State) : (loadImage image s).es = s.es := by
  rcases loadImage_cases image s with ⟨-, -, h⟩ | ⟨-, -, h⟩ <;> simp [h]

@[simp] theorem loadImage_fr (image : List Byte) (s : State) : (loadImage image s).fr = s.fr := by
  rcases loadImage_cases image s with ⟨-, -, h⟩ | ⟨-, -, h⟩ <;> simp [h]

@[simp] theorem loadImage_stop (image : List Byte) (s : State) : (loadImage image s).stop = s.stop := by
  rcases loadImage_cases image s with ⟨-, -, h⟩ | ⟨-, -, h⟩ <;> simp [h]

@[simp] theorem loadImage_cfg (image : List Byte) (s : State) : (loadImage image s).cfg = s.cfg := by
  rcases loadImage_cases image s with ⟨-, -, h⟩ | ⟨-, -, h⟩ <;> simp [h]

@[simp] theorem loadImage_pc (image : List Byte) (s : State) : (loadImage image s).pc = s.pc := by
  rcases loadImage_cases image s with ⟨-, -, h⟩ | ⟨-, -, h⟩ <;> simp [h]

@[simp] theorem loadImage_slot (image : List Byte) (s : State) (k : Nat) : (loadImage image s).slot k = s.slot k := by
  rcases loadImage_cases image s with ⟨-, -, h⟩ | ⟨-, -, h⟩ <;> simp [h]

@[simp] theorem loadImage_started (image : List Byte) (s : State) : (loadImage image s).started = s.started := by
  rcases loadImage_cases image s with ⟨-, -, h⟩ | ⟨-, -, h⟩ <;> simp [h]

theorem loadImage_memWf (image : List Byte) (h : s.memWf) : (loadImage image s).memWf := by
  rcases loadImage_cases image s with ⟨-, -, load⟩ | ⟨-, -, load⟩ <;> rw [load]
  · exact State.storeBytes_memWf _ _ h
  · exact h

/-- An action beside the engine's step and reset: ES, FR, the pc, the slots, the parameters and the mark stay, STOP is not cleared and
memory keeps its form (R153, R158, R159, R204). -/
theorem perform_keeps {a : Action} (engine : a ≠ .engineStep) (reset : a ≠ .reset) (h : perform a s = .next t) :
    t.es = s.es ∧ t.fr = s.fr ∧ t.pc = s.pc ∧ (∀ k, t.slot k = s.slot k) ∧ t.cfg = s.cfg ∧ t.started = s.started ∧
    (s.stop = true → t.stop = true) ∧ (s.memWf → t.memWf) := by
  rcases perform_cases h with ⟨rfl, -⟩ | ⟨-, -, rfl⟩ | ⟨-, -, rfl⟩ | ⟨k, -, rfl⟩ | ⟨-, rfl⟩ | ⟨rfl, -⟩ | ⟨image, -, -, rfl⟩
  · exact absurd rfl engine
  · exact ⟨rfl, rfl, rfl, by simp, rfl, rfl, id, id⟩
  · exact ⟨rfl, rfl, rfl, by simp, rfl, rfl, id, id⟩
  · exact ⟨rfl, rfl, rfl, by simp, rfl, rfl, id, id⟩
  · exact ⟨rfl, rfl, rfl, by simp, rfl, rfl, fun _ => rfl, id⟩
  · exact absurd rfl reset
  · exact ⟨by simp, by simp, by simp, by simp, by simp, by simp, by simp, loadImage_memWf image⟩

theorem perform_cfg {a : Action} (h : perform a s = .next t) : t.cfg = s.cfg := by
  by_cases engine : a = .engineStep
  · subst engine
    obtain ⟨-, -, cfg, -⟩ := engineStep_keeps h
    exact cfg
  by_cases reset : a = .reset
  · subst reset
    cases h
    rfl
  · obtain ⟨-, -, -, -, cfg, -, -, -⟩ := perform_keeps engine reset h
    exact cfg

/-! ### The invariant -/

/-- Fields the invariant does not speak of may change, and STOP may be set. -/
theorem Inv.of_eq (h : Inv s) (es : t.es = s.es) (fr : t.fr = s.fr) (pc : t.pc = s.pc) (slots : ∀ k, t.slot k = s.slot k)
    (stop : s.stop = true → t.stop = true) (mem : s.memWf → t.memWf) : Inv t where
  mem := mem h.mem
  pc := pc ▸ h.pc
  slots k := slots k ▸ h.slots k
  record := by rw [es, fr]; exact h.record
  stopped stopped := stop (h.stopped (es ▸ stopped))

/-- FR is empty wherever an engine step can be taken (R31). -/
theorem Inv.fr_of_live (inv : Inv s) (live : s.Live) : s.fr = none :=
  by_contra fun filled => ended_iff_not_live.1 (.inl (inv.record.2 filled)) live

theorem resetWith_slot (c : Config) (k : Nat) : (State.resetWith c).slot k = 0 := by
  simp only [State.slot, State.resetWith, Vector.getElem?_replicate]
  split <;> rfl

theorem inv_resetWith (c : Config) : Inv (State.resetWith c) where
  mem := resetWith_memWf c
  pc := show 0x200 ≤ 0x10FE by decide
  slots k := by simp [resetWith_slot]
  record := by simp [State.resetWith]
  stopped stopped := nomatch stopped

/-- R24: from an instruction that was fetched, no target lies above 0x10FE. -/
theorem State.Reaches.pc_le {p : Word} (h : s.Reaches p) (fetched : s.pc.toNat ≤ 0xFFE)
    (slots : ∀ k, (s.slot k).toNat ≤ 0xFFE) : p.toNat ≤ 0x10FE := by
  cases h with
  | advance | skip =>
    rw [BitVec.toNat_add]
    simp
    omega
  | jump low => exact low
  | back k =>
    have := slots k
    rw [BitVec.toNat_add]
    simp
    omega

theorem Retires.inv (retires : Retires j s t) (h : Inv s) (live : s.Live) (fetched : s.pc.toNat ≤ 0xFFE) : Inv t where
  mem := retires.mem h.mem
  pc := retires.pc.pc_le fetched h.slots
  slots k := by
    rcases retires.slots k with same | pushed
    · exact same ▸ h.slots k
    · exact pushed ▸ fetched
  record := by simp [retires.es, retires.frame.fr, h.fr_of_live live]
  stopped stopped := by simp [retires.es] at stopped

theorem engineStep_inv (h : engineStep s = .next t) (inv : Inv s) : Inv t := by
  have live := (engineStep_cases h).1
  have marked : Inv s.markStarted := inv.of_eq rfl rfl rfl (by simp) id id
  have empty : s.fr = none := inv.fr_of_live live
  rcases engineStep_ends h with ⟨hs, rfl⟩ | ⟨-, f, -, rfl⟩ | ⟨-, -, -, rfl⟩ | ⟨-, -, j, instr, -, retires⟩
  · exact { marked with record := by simp [empty], stopped := fun _ => hs }
  · exact { marked with record := by simp [State.raise], stopped := nofun }
  · exact { marked with record := by simp [empty], stopped := nofun }
  · obtain ⟨w, fetch, -⟩ := Option.bind_eq_some_iff.1 instr
    have fetched := State.fetch_some_lt fetch
    exact retires.inv marked live (by simp; omega)

theorem perform_inv {a : Action} (h : perform a s = .next t) (inv : Inv s) : Inv t := by
  by_cases engine : a = .engineStep
  · subst engine
    exact engineStep_inv h inv
  by_cases reset : a = .reset
  · subst reset
    cases h
    exact (inv_resetWith s.cfg).of_eq rfl rfl rfl (fun _ => rfl) id id
  · obtain ⟨es, fr, pc, slots, -, -, stop, mem⟩ := perform_keeps engine reset h
    exact inv.of_eq es fr pc slots stop mem

/-! ### The statements -/

/-- Settles O6: the two bytes put together are the high one times 256 and the low one. -/
theorem fetchIsBigEndian : Obligations.FetchIsBigEndian :=
  fun _ => ⟨fun inside => ⟨_, State.fetch_of_lt inside, wordOfBytes_toNat _ _⟩, State.fetch_none_iff.2⟩

/-- Settles O7, the engine first on the agenda or the agenda empty. -/
theorem stepRunsDecodedInstruction : Obligations.StepRunsDecodedInstruction := by
  intro s w i live stop fetch dec
  have run := engineStep_of_decode live stop fetch dec
  refine ⟨run, fun empty => ?_, fun rest first => ?_⟩
  · rw [step, nextAction, empty]
    exact run
  · rw [step, nextAction, first]
    exact engineStep_of_decode live stop ((s.setAgenda_fetch rest).trans fetch) dec

/-- Settles O8: an engine step is taken exactly from Idle and Waiting. -/
theorem stepIsOneAtomicAction : Obligations.StepIsOneAtomicAction := by
  refine fun s => ⟨fun empty => ?_, fun a rest first => ?_, engineStep_of_faulted, engineStep_of_stopped, ?_⟩
  · rw [step, nextAction, empty]
  · rw [step, nextAction, first]
  · rw [ended_iff_not_live, live_iff_engineStep]

/-- Settles O10: under the invariant FR is empty where the engine is not Faulted. -/
theorem stopIsSeenBeforeTheFetch : Obligations.StopIsSeenBeforeTheFetch := by
  intro s live stop
  exact ⟨_, engineStep_of_stop live stop, rfl, fun inv => ⟨rfl, inv.fr_of_live live⟩⟩

/-- Settles O11: one clause per failed check. -/
theorem fetchAndDecodeFaultsAreTaken : Obligations.FetchAndDecodeFaultsAreTaken :=
  fun _ live stop =>
    ⟨fun outside => ⟨_, engineStep_of_fetch_none live stop (State.fetch_none_iff.2 outside), rfl⟩,
     fun _ fetch dec => ⟨_, engineStep_of_decode_none live stop fetch dec, rfl⟩⟩

/-- Settles O12: of the engine's step only the fault ends Faulted, and no action but reset clears what it sets. -/
theorem faultedStepWritesNothing : Obligations.FaultedStepWritesNothing := by
  refine ⟨fun s t h faulted => ?_, fun t => engineStep_of_faulted, fun t u a reset h => ?_⟩
  · rcases engineStep_ends h with ⟨-, rfl⟩ | ⟨-, f, -, rfl⟩ | ⟨-, -, -, rfl⟩ | ⟨-, -, j, -, -, retires⟩
    · cases faulted
    · exact ⟨f, rfl⟩
    · cases faulted
    · rw [retires.es] at faulted
      cases faulted
  · by_cases engine : a = .engineStep
    · subst engine
      have live : t.Live := (engineStep_cases h).1
      obtain ⟨-, keptStop, -, -⟩ := engineStep_keeps h
      refine ⟨fun ended => ?_, fun ended => ?_, fun stop => ?_, engineStep_fr_ne_none h⟩
      · exact absurd live (ended_iff_not_live.1 (.inl ended))
      · exact absurd live (ended_iff_not_live.1 (.inr ended))
      · exact keptStop.trans stop
    · obtain ⟨es, fr, -, -, -, -, stop, -⟩ := perform_keeps engine reset h
      exact ⟨fun ended => ⟨es.trans ended, fr⟩, fun ended => ⟨es.trans ended, fr⟩, stop, fun filled => fr ▸ filled⟩

/-- Settles O13: the causes are those of `State.fault`, and the step takes that fault, or else does not end Faulted. -/
theorem faultsHaveExactlyTheirCauses : Obligations.FaultsHaveExactlyTheirCauses := by
  refine ⟨by decide, fun s t running h f => ?_⟩
  rw [faultCause_iff]
  rcases engineStep_ends h with ⟨stop, -⟩ | ⟨-, g, cause, rfl⟩ | ⟨-, clear, -, rfl⟩ | ⟨-, clear, j, -, -, retires⟩
  · rw [running] at stop
    cases stop
  · rw [cause]
    simp [FaultsWith, State.raise]
  · simp [clear, FaultsWith, State.hold]
  · have idle := retires.es
    refine ⟨fun cause => ?_, fun taken => ?_⟩
    · rw [clear] at cause
      cases cause
    · rw [taken] at idle
      cases idle

/-- Settles O14, by the four ways an engine step ends. -/
theorem engineStateTransitions : Obligations.EngineStateTransitions := by
  refine fun s t h => ⟨(engineStep_cases h).1, ?_⟩
  rcases engineStep_ends h with ⟨stop, rfl⟩ | ⟨stop, f, cause, rfl⟩ | ⟨stop, -, ⟨j, instr, key, x, rfl⟩, rfl⟩ |
    ⟨stop, -, j, instr, moves, retires⟩
  · simp [stop]
  · have notKey (x : Reg) : s.current ≠ some (.ldVxK x) := by
      intro instr
      rw [State.fault_of_current instr] at cause
      cases cause
    simp [State.raise, stop, notKey]
  · simp [stop, key, instr]
  · have notKey (key : s.key = none) (x : Reg) : j ≠ .ldVxK x := fun hx => moves ⟨key, x, hx⟩
    simpa [retires.es, stop, instr] using notKey

/-- Settles O15: the agenda is no part of the invariant, and every action keeps it. -/
theorem stepKeepsInvariant : Obligations.StepKeepsInvariant := by
  intro s t inv h
  rcases step_cases h with ⟨-, engine⟩ | ⟨a, rest, -, action⟩
  · exact engineStep_inv engine inv
  · exact perform_inv action (inv.of_eq rfl rfl rfl (by simp) id id)

/-- Settles O16: reset memory lists nothing, the slots are 0 and the engine is Idle with FR empty. -/
theorem resetHasInvariant : Obligations.ResetHasInvariant := inv_resetWith

/-- Settles O17, by the action that the step takes. -/
theorem parametersAreFixedForARun : Obligations.ParametersAreFixedForARun := by
  intro s t h
  rcases step_cases h with ⟨-, engine⟩ | ⟨a, rest, -, action⟩
  · exact perform_cfg (a := .engineStep) engine
  · exact (perform_cfg action).trans (s.setAgenda_cfg rest)

/-- Settles O24, by what the engine's step keeps. -/
theorem engineNeverWritesKeyOrStop : Obligations.EngineNeverWritesKeyOrStop := by
  intro s t h
  obtain ⟨key, stop, -, -⟩ := engineStep_keeps h
  exact ⟨key, stop⟩

end Sys2Proof.Machine
end

section
/-! PROOF. Calls nested and undone, the random byte, what a block store and a digit store leave for a load and for the next fetch, and
the wait for a key (40_control.md section 2; 41_alu.md section 4; 42_index_memory.md; 43_timers_keys.md section 3). -/

namespace Sys2Proof.Machine

/-! ### Calls -/

theorem State.slot_eq_of_stack_eq {s t : State} (h : t.stack = s.stack) (k : Nat) : t.slot k = s.slot k := by
  rw [State.slot, State.slot, h]

/-- Calls that fit on the stack, from any depth: each pushes one address and leaves FR alone. -/
theorem execAll_calls (targets : List (BitVec 12)) (s : State) (room : s.sp.val + targets.length ≤ 16) :
    ∃ t, execAll (targets.map .call) s = .next t ∧ t.sp.val = s.sp.val + targets.length ∧ t.fr = s.fr ∧
      (s.es = .idle ∨ targets ≠ [] → t.es = .idle) := by
  induction targets generalizing s with
  | nil => exact ⟨s, rfl, rfl, rfl, by simp⟩
  | cons nnn rest ih =>
    simp only [List.length_cons] at room
    have depth : ((s.push s.pc).goto (zextAddr nnn)).sp.val = s.sp.val + 1 := State.push_sp s s.pc (by omega)
    obtain ⟨t, run, sp, fr, idle⟩ := ih ((s.push s.pc).goto (zextAddr nnn)) (by omega)
    refine ⟨t, ?_, ?_, by simpa using fr, fun _ => idle (.inl rfl)⟩
    · rw [List.map_cons, execAll, exec_call_of_not_full s nnn (by omega)]
      exact run
    · rw [sp, depth, List.length_cons]
      omega

/-- Settles O31: the slot on top is the one that the CALL pushed, and only the stack is asked. -/
theorem returnUndoesCall : Obligations.ReturnUndoesCall := by
  intro s nnn notFull
  have room : s.sp.val < 16 := by omega
  refine ⟨_, exec_call_of_not_full s nnn notFull, fun u sp stack => ?_⟩
  have depth : u.sp.val = s.sp.val + 1 := (congrArg Fin.val sp).trans (State.push_sp s s.pc room)
  have top : u.slot u.sp.val = s.pc := by
    rw [State.slot_eq_of_stack_eq stack, depth, State.goto_slot, State.push_slot s s.pc room (by omega), if_pos rfl]
  refine ⟨_, exec_ret_of_nonempty u (by omega), ?_, Fin.ext ?_⟩
  · rw [State.goto_pc, top]
  · rw [State.goto_sp, State.pop_sp]
    omega

/-- Settles O32, by induction over the targets from any depth. -/
theorem sixteenNestedCallsSucceedSeventeenthFaults : Obligations.SixteenNestedCallsSucceedSeventeenthFaults := by
  intro s targets nnn empty length
  obtain ⟨t, run, sp, fr, idle⟩ := execAll_calls targets s (by omega)
  have full : t.sp.val = 16 := by omega
  have some_target : targets ≠ [] := List.ne_nil_of_length_pos (by omega)
  exact ⟨t, run, full, idle (.inr some_target), fr, _, exec_call_of_full t nnn full, faultsWith_raiseBy _ (.call nnn) t⟩

/-! ### The random byte -/

/-- Settles O40, by whether the host names the next byte. -/
theorem randomByteIsMasked : Obligations.RandomByteIsMasked := by
  refine fun x kk => ⟨decode_encode (i := .rnd x kk) rfl, fun s => ?_⟩
  refine ⟨_, exec_rnd s x kk, retiresTo_goto _ _, fun b rest named => ?_, fun free => ?_, (changesOnly_rnd s x _).goto _⟩
  · simp [State.rndByte, State.rndTaken, named]
  · simp [State.rndByte, State.rndTaken, free]

/-! ### Stored bytes read back -/

theorem State.readByte_eq_of_mem_eq {s t : State} (cfg : t.cfg = s.cfg) (mem : t.mem = s.mem) (a : Nat) :
    t.readByte a = s.readByte a := by
  rw [State.readByte, State.readByte, cfg, mem]

/-- The word after an instruction that advanced the pc by 2, as the two bytes that stand there (R63). -/
theorem State.fetch_after_advance {s t : State} (pc : t.pc = s.pc + 2) (inside : s.pc.toNat + 3 < 4096) :
    ∃ w, t.fetch = some w ∧ w.toNat / 256 = (t.readByte (s.pc.toNat + 2)).toNat ∧
      w.toNat % 256 = (t.readByte (s.pc.toNat + 3)).toNat := by
  have next : t.pc.toNat = s.pc.toNat + 2 := by
    rw [pc, BitVec.toNat_add]
    simp
    omega
  have fetch : t.fetch = some (wordOfBytes (t.readByte (s.pc.toNat + 2)) (t.readByte (s.pc.toNat + 3))) := by
    rw [State.fetch_of_lt (by omega), next]
  refine ⟨_, fetch, ?_⟩
  rw [wordOfBytes_toNat]
  omega

/-- Settles O45: FX65 reads the bytes that FX55 wrote, from the same I. -/
theorem blockStoreThenLoadRestores : Obligations.BlockStoreThenLoadRestores := by
  intro s x wf inside
  obtain ⟨t, store, -, stored, -, -⟩ := ((blockStoreWritesMemory x).2 s).2 wf inside
  refine ⟨t, store, fun u cfg mem i => ?_⟩
  obtain ⟨v, load, -, loaded, -, -⟩ := ((blockLoadReadsMemory x).2 u).2 (i ▸ inside)
  refine ⟨v, load, fun k hk => ?_⟩
  rw [loaded k hk, i, State.readByte_eq_of_mem_eq cfg mem, stored k hk]

/-- Settles O46: the next fetch reads memory as the store left it. -/
theorem storedBytesAreFetchedNext : Obligations.StoredBytesAreFetchedNext := by
  refine fun s x wf next => ⟨fun inside => ?_, fun inside => ?_⟩
  · obtain ⟨t, store, ⟨pc, -⟩, stored, -, -⟩ := ((blockStoreWritesMemory x).2 s).2 wf inside
    obtain ⟨w, fetch, high, low⟩ := State.fetch_after_advance pc next
    refine ⟨t, w, store, fetch, fun k hk => ⟨fun place => ?_, fun place => ?_⟩⟩
    · rw [high, place, stored k hk]
    · rw [low, place, stored k hk]
  · obtain ⟨t, store, ⟨pc, -⟩, hundreds, tens, ones, -⟩ := ((bcdStoresThreeDigits x).2 s).2 wf inside
    obtain ⟨w, fetch, high, low⟩ := State.fetch_after_advance pc next
    have digit (k : Fin 3) : (t.readByte (s.i.toNat + k.val)).toNat = DigitOf (s.reg x) k :=
      match k with
      | 0 => hundreds
      | 1 => tens
      | 2 => ones
    refine ⟨t, w, store, fetch, fun k => ⟨fun place => ?_, fun place => ?_⟩⟩
    · rw [high, place, digit]
    · rw [low, place, digit]

/-! ### The wait for a key -/

theorem byteOfKey_toNat (k : Key) : (byteOfKey k).toNat = k.val := Nat.mod_eq_of_lt (by omega)

/-- Settles O49: a key is loaded as a byte, and none holds. -/
theorem waitForKeyHoldsOrStores : Obligations.WaitForKeyHoldsOrStores := by
  refine fun x => ⟨decode_encode (i := .ldVxK x) rfl, fun s => ⟨exec_ldVxK_of_none x, fun k pressed => ?_⟩⟩
  obtain ⟨t, answer, retires, value, frame⟩ := loads_of_exec (exec_ldVxK_of_some x pressed)
  exact ⟨t, answer, retires, value ▸ byteOfKey_toNat k, frame⟩

/-- Settles O50: the held state differs from the one before in ES and the mark only, so the next step fetches FX0A again. -/
theorem holdIsLiftedByKeyOrStop : Obligations.HoldIsLiftedByKeyOrStop := by
  intro s w x live stop key fetch dec
  have holds : engineStep s = .next s.markStarted.hold :=
    (engineStep_of_decode live stop fetch dec).trans (exec_ldVxK_of_none x key)
  have held : s.markStarted.hold.Live := .inr rfl
  have again : s.markStarted.hold.fetch = some w := by simpa using fetch
  refine ⟨_, holds, rfl, rfl, ?_, fun k => ?_, ?_⟩
  · exact (engineStep_of_decode held stop again dec).trans (exec_ldVxK_of_none x key)
  · obtain ⟨u, answer, retires, value, frame⟩ :=
      ((waitForKeyHoldsOrStores x).2 (s.markStarted.hold.setKey (some k)).markStarted).2 k rfl
    have step : engineStep (s.markStarted.hold.setKey (some k)) = .next u :=
      (engineStep_of_decode (s := s.markStarted.hold.setKey (some k)) held stop (by simpa using fetch) dec).trans answer
    exact ⟨_, u, rfl, step, value, retires, frame.key⟩
  · exact ⟨_, _, rfl, engineStep_of_stop (.inr rfl) rfl, rfl, rfl, by simp⟩

end Sys2Proof.Machine
end

section
/-! PROOF. Reset, the load, the word placed for the next fetch, and the timers (10_state.md rule R36; 43_timers_keys.md rules R153, R154;
70_reset_and_hazards.md rules R200 to R205). -/

namespace Sys2Proof.Machine

variable {s t : State}

/-! ### The word placed for the next fetch -/

theorem State.fetch_placeWord (wf : s.memWf) (inside : s.pc.toNat + 1 < 4096) (w : Word) :
    (s.placeWord s.pc.toNat w).fetch = some w := by
  have byte {k : Nat} (hk : k < 2) :
      (s.placeWord s.pc.toNat w).readByte (s.pc.toNat + k) = [highByte w, lowByte w][k] :=
    State.readByte_storeBytes_add wf s.pc.toNat [highByte w, lowByte w] inside hk
  have high : (s.placeWord s.pc.toNat w).readByte s.pc.toNat = highByte w := byte (k := 0) (by omega)
  have low : (s.placeWord s.pc.toNat w).readByte (s.pc.toNat + 1) = lowByte w := byte (k := 1) (by omega)
  have pc : (s.placeWord s.pc.toNat w).pc = s.pc := State.storeBytes_pc s _ _
  rw [State.fetch_of_lt (by rwa [pc]), pc, high, low, wordOfBytes_high_low]

theorem State.atFetchable_fetchable (s : State) : s.atFetchable.pc.toNat + 1 < 4096 := by
  unfold State.atFetchable
  split
  · exact (by decide : 0x200 + 1 < 4096)
  · omega

theorem State.revive_live (s : State) : s.revive.Live := by
  cases h : s.es <;> simp [State.revive, State.Live, h]

/-- Settles O9: the engine is revived, sees no STOP and no other action, and its pc lies inside memory. -/
theorem placedWordIsFetchedNext : Obligations.PlacedWordIsFetchedNext := by
  intro s w wf
  have base : s.revive.atFetchable.unhindered.memWf := State.memWf_of_eq (by simp) (by simp) wf
  have word : BitVec.ofNat 16 (w % 2 ^ 16) = BitVec.ofNat 16 w := BitVec.eq_of_toNat_eq (by simp)
  refine ⟨?_, ?_, State.storeBytes_stop _ _ _, State.storeBytes_agenda _ _ _⟩
  · rw [← word]
    exact State.fetch_placeWord base s.revive.atFetchable_fetchable _
  · have es : (s.withFetchWord 16 w).es = s.revive.es := by simp [State.withFetchWord, placeNextWord, State.placeWord]
    rw [State.Live, es]
    exact s.revive_live

/-! ### Reset and the host -/

theorem resetByte_of_glyph (c : Config) (k : Fin 80) : c.resetByte (c.fontBase + k.val) = c.fontData[k.val] := by
  simp [Config.resetByte]

theorem resetByte_of_outside (c : Config) {a : Nat} (h : a < c.fontBase ∨ c.fontBase + 80 ≤ a) :
    c.resetByte a = 0 := dif_neg (by omega)

/-- Settles O54: memory lists nothing, so that every byte reads as its reset byte. -/
theorem resetValues : Obligations.ResetValues := by
  rintro c s rfl
  have reg (r : Reg) : (State.resetWith c).reg r = 0 := by simp [State.reg, State.resetWith, Vector.get_eq_getElem]
  exact ⟨reg, rfl, rfl, rfl, resetWith_slot c, rfl, rfl, rfl, rfl, rfl, rfl, Frame.pixel_clear, resetByte_of_glyph c,
    fun _ => resetByte_of_outside c⟩

/-- Settles O55: no operation of the host asks for anything. -/
theorem hostOperationsAreAlwaysTaken : Obligations.HostOperationsAreAlwaysTaken :=
  fun _ => ⟨fun _ => rfl, rfl, _, rfl, rfl, rfl⟩

/-! ### The load -/

theorem perform_load_of_not_started (image : List Byte) (h : s.started = false) :
    perform (.load image) s = .next (loadImage image s) := by
  simp [perform, hostLoad, h]

theorem perform_load_of_started (image : List Byte) (h : s.started = true) :
    perform (.load image) s = .refused .loadAfterFirstStep := by
  simp [perform, hostLoad, h]

/-- Settles O56: the load is a run of stores that ends inside memory. -/
theorem loadCopiesTheImage : Obligations.LoadCopiesTheImage := by
  intro s image wf started small
  rcases loadImage_cases image s with ⟨-, status, load⟩ | ⟨large, -, -⟩
  · have room : 0x200 + image.length ≤ 4096 := by omega
    refine ⟨status, _, (perform_load_of_not_started image started).trans (congrArg _ load), fun k hk => ?_,
      State.storeBytes_pc s _ _, State.storeBytes_es s _ _, changesOnly_storeBytes wf 0x200 image room⟩
    exact State.readByte_storeBytes_add wf 0x200 image room hk
  · exact absurd small (by omega)

/-- Settles O57: only reset clears the mark that an engine step sets. -/
theorem loadIsRefusedWhenTooLargeOrTooLate : Obligations.LoadIsRefusedWhenTooLargeOrTooLate := by
  refine ⟨fun s image => ⟨fun started large => ?_, perform_load_of_started image⟩, fun s t h => ?_,
    fun s t a reset h started => ?_⟩
  · rcases loadImage_cases image s with ⟨small, -, -⟩ | ⟨-, status, load⟩
    · exact absurd large (by omega)
    · exact ⟨status, (perform_load_of_not_started image started).trans (congrArg _ load)⟩
  · obtain ⟨-, -, -, marked⟩ := engineStep_keeps h
    exact marked
  · by_cases engine : a = .engineStep
    · subst engine
      obtain ⟨-, -, -, marked⟩ := engineStep_keeps h
      exact marked
    · obtain ⟨-, -, -, -, -, mark, -, -⟩ := perform_keeps engine reset h
      exact mark.trans started

/-! ### The timers -/

theorem byte_sub_one_toNat {b : Byte} (h : 0 < b.toNat) : (b - 1).toNat + 1 = b.toNat := by
  rw [BitVec.toNat_sub]
  have := b.isLt
  simp
  omega

theorem byte_ne_zero_iff {b : Byte} : b ≠ 0 ↔ 0 < b.toNat := by
  rw [Nat.pos_iff_ne_zero, ne_eq, ne_eq, BitVec.toNat_eq]
  rfl

theorem State.dtEnabled_iff : s.dtEnabled = true ↔ s.stop = false ∧ 0 < s.dt.toNat := by
  simp [State.dtEnabled, ← byte_ne_zero_iff]

theorem State.stEnabled_iff : s.stEnabled = true ↔ s.stop = false ∧ 0 < s.st.toNat := by
  simp [State.stEnabled, ← byte_ne_zero_iff]

theorem perform_decDT_of_enabled (h : s.dtEnabled = true) : perform .decDT s = .next (s.setDT (s.dt - 1)) := if_pos h

theorem perform_decDT_of_not_enabled (h : ¬ s.dtEnabled = true) : perform .decDT s = .refused .timerNotEnabled := if_neg h

theorem perform_decST_of_enabled (h : s.stEnabled = true) : perform .decST s = .next (s.setST (s.st - 1)) := if_pos h

theorem perform_decST_of_not_enabled (h : ¬ s.stEnabled = true) : perform .decST s = .refused .timerNotEnabled := if_neg h

/-- Settles O58: each action is the decrement of a byte above zero, and is not enabled elsewhere. -/
theorem timerActions : Obligations.TimerActions := by
  refine fun s => ⟨fun stop pos => ?_, fun stop pos => ?_, fun off => ?_, fun off => ?_⟩
  · exact ⟨_, perform_decDT_of_enabled (State.dtEnabled_iff.2 ⟨stop, pos⟩), byte_sub_one_toNat pos, rfl, rfl,
      changesOnly_setDT s _⟩
  · exact ⟨_, perform_decST_of_enabled (State.stEnabled_iff.2 ⟨stop, pos⟩), byte_sub_one_toNat pos, rfl, rfl,
      changesOnly_setST s _⟩
  · refine perform_decDT_of_not_enabled fun enabled => ?_
    obtain ⟨stop, pos⟩ := State.dtEnabled_iff.1 enabled
    rcases off with off | off
    · simp [stop] at off
    · omega
  · refine perform_decST_of_not_enabled fun enabled => ?_
    obtain ⟨stop, pos⟩ := State.stEnabled_iff.1 enabled
    rcases off with off | off
    · simp [stop] at off
    · omega

theorem step_of_agenda_cons {a : Action} {rest : List Action} (h : s.agenda = a :: rest) :
    step s = perform a (s.setAgenda rest) := by
  rw [step, nextAction, h]

theorem run_succ_of_step (M : Host.Core) (k : Nat) {s t : M.State} (h : M.step s = .next t) :
    M.run (k + 1) s = M.run k t := by
  simp only [Host.Core.run, h]

/-- As many decrements on the agenda as DT counts (R153). -/
theorem run_decrements (k : Nat) (s : State) (stop : s.stop = false) (dt : s.dt.toNat = k)
    (agenda : s.agenda = List.replicate k .decDT) : ∃ t, core.run k s = .next t ∧ t.dt = 0 ∧ t.agenda = [] := by
  induction k generalizing s with
  | zero => exact ⟨s, rfl, BitVec.eq_of_toNat_eq dt, agenda⟩
  | succ k ih =>
    have less : (s.dt - 1).toNat + 1 = s.dt.toNat := byte_sub_one_toNat (by omega)
    have enabled : (s.setAgenda (List.replicate k .decDT)).dtEnabled = true :=
      State.dtEnabled_iff.2 ⟨stop, show 0 < s.dt.toNat by omega⟩
    have one := (step_of_agenda_cons agenda).trans (perform_decDT_of_enabled enabled)
    obtain ⟨t, run, zero, done⟩ := ih ((s.setAgenda (List.replicate k .decDT)).setDT (s.dt - 1)) stop
      (show (s.dt - 1).toNat = k by omega) rfl
    exact ⟨t, (run_succ_of_step core k one).trans run, zero, done⟩

/-- Settles O59, by induction on DT. -/
theorem delayTimerCountsDownToZero : Obligations.DelayTimerCountsDownToZero := by
  intro s stop agenda
  obtain ⟨t, run, zero, done⟩ := run_decrements s.dt.toNat s stop rfl agenda
  have notEnabled : ¬ t.dtEnabled = true := by simp [State.dtEnabled, zero]
  exact ⟨t, run, zero, done, perform_decDT_of_not_enabled notEnabled⟩

/-- A decrement in a run lowers DT by one (R153). -/
theorem Run.dt_of_decDT (ρ : Run) {m : Nat} (h : ρ.acts m = .decDT) :
    (ρ.states (m + 1)).dt.toNat + 1 = (ρ.states m).dt.toNat := by
  have takes := ρ.takes m
  rw [h] at takes
  by_cases enabled : (ρ.states m).dtEnabled = true
  · rw [perform_decDT_of_enabled enabled] at takes
    have next : ρ.states (m + 1) = (ρ.states m).setDT ((ρ.states m).dt - 1) := (Host.Outcome.next.inj takes).symm
    rw [next]
    exact byte_sub_one_toNat (State.dtEnabled_iff.1 enabled).2
  · rw [perform_decDT_of_not_enabled enabled] at takes
    cases takes

theorem Run.dt_antitone (ρ : Run) {n m : Nat} (falls : ∀ i, n ≤ i → (ρ.states (i + 1)).dt.toNat ≤ (ρ.states i).dt.toNat)
    (hm : n ≤ m) : (ρ.states m).dt.toNat ≤ (ρ.states n).dt.toNat := by
  induction m, hm using Nat.le_induction with
  | base => exact Nat.le_refl _
  | succ i hi ih => exact (falls i hi).trans ih

/-- Settles O60, by induction on DT: while it is above zero, fairness brings a decrement, and no action before it raises DT. -/
theorem fairRunsEmptyTheDelayTimer : Obligations.FairRunsEmptyTheDelayTimer := by
  intro ρ n fair quiet
  induction hk : (ρ.states n).dt.toNat using Nat.strong_induction_on generalizing n with
  | _ k ih =>
    by_contra never
    have enabled (m : Nat) (hm : n ≤ m) : (ρ.states m).dtEnabled = true :=
      State.dtEnabled_iff.2 ⟨(quiet m hm).1, byte_ne_zero_iff.1 fun zero => never ⟨m, hm, zero⟩⟩
    obtain ⟨m, hm, dec⟩ := fair.1 n enabled
    have falls := ρ.dt_of_decDT dec
    have notRaised := ρ.dt_antitone (fun m hm => (quiet m hm).2) hm
    obtain ⟨z, hz, zero⟩ := ih _ (by omega) (m + 1) (fun i hi => quiet i (by omega)) rfl
    exact never ⟨z, by omega, zero⟩

end Sys2Proof.Machine
end

section
/-! PROOF. DXYN: what a sprite adds to a pixel, by the pixel's distance from the origin on the surface that wraps both axes, then the
statements (44_draw.md rules R170 to R172). -/

namespace Sys2Proof.Machine

/-! ### Distances on the wrapping surface (R172) -/

/-- How many columns pixel column `c` lies right of column `ox`. -/
def columnOffset (ox : Nat) (c : Fin 64) : Nat := (c.val + 64 - ox % 64) % 64

/-- How many rows pixel row `r` lies below row `oy`. -/
def rowOffset (oy : Nat) (r : Fin 32) : Nat := (r.val + 32 - oy % 32) % 32

theorem eq_columnOf_iff (ox : Nat) (c : Fin 64) {k : Nat} (hk : k < 64) : c = columnOf (ox + k) ↔ columnOffset ox c = k := by
  rw [Fin.ext_iff, columnOf, columnOffset]
  have := c.isLt
  simp only
  omega

theorem eq_rowOf_iff (oy : Nat) (r : Fin 32) : r = rowOf oy ↔ rowOffset oy r = 0 := by
  rw [Fin.ext_iff, rowOf, rowOffset]
  have := r.isLt
  simp only
  omega

theorem rowOffset_succ_of_zero {oy : Nat} {r : Fin 32} (h : rowOffset oy r = 0) : rowOffset (oy + 1) r = 31 := by
  unfold rowOffset at h ⊢
  omega

theorem rowOffset_succ_of_succ {oy d : Nat} {r : Fin 32} (h : rowOffset oy r = d + 1) : rowOffset (oy + 1) r = d := by
  unfold rowOffset at h ⊢
  omega

/-! ### One row, then the rows from the top (R170) -/

/-- Each column of a sprite row is drawn once, so a pixel is toggled by the one column that falls on it, if any. -/
theorem Frame.pixel_drawRow_of_nodup (ox y : Nat) (b : Byte) (fb : Frame) (c : Fin 64) (r : Fin 32) {cs : List Nat}
    (nodup : cs.Nodup) (small : ∀ k ∈ cs, k < 64) :
    (Frame.drawRow ox y b fb cs).pixel c r =
      (fb.pixel c r ^^ (decide (rowOffset y r = 0) && (decide (columnOffset ox c ∈ cs) && spriteBit b (columnOffset ox c)))) := by
  induction cs generalizing fb with
  | nil => simp [Frame.drawRow]
  | cons k ks ih =>
    obtain ⟨fresh, nodup⟩ := List.nodup_cons.1 nodup
    have hk : k < 64 := small k (by simp)
    have toggled : (if spriteBit b k then fb.toggle (columnOf (ox + k)) (rowOf y) else fb).pixel c r =
        (fb.pixel c r ^^ (spriteBit b k && (decide (columnOffset ox c = k) && decide (rowOffset y r = 0)))) := by
      cases spriteBit b k <;> simp [Frame.pixel_toggle, eq_columnOf_iff ox c hk, eq_rowOf_iff]
    rw [Frame.drawRow, ih _ nodup fun i hi => small i (by simp [hi]), toggled]
    by_cases here : columnOffset ox c = k
    · simp [here, fresh, Bool.and_comm]
    · simp [here]

/-- A drawn pixel is exclusive-ored with the sprite's bit that falls on it, where one does. -/
theorem Frame.pixel_draw (ox oy : Nat) (fb : Frame) (c : Fin 64) (r : Fin 32) (bs : List Byte) (short : bs.length ≤ 32) :
    (Frame.draw ox oy fb bs).pixel c r =
      (fb.pixel c r ^^ (decide (columnOffset ox c < 8) && bs[rowOffset oy r]?.any (spriteBit · (columnOffset ox c)))) := by
  induction bs generalizing fb oy with
  | nil => simp [Frame.draw]
  | cons b bs ih =>
    simp only [List.length_cons] at short
    have row := Frame.pixel_drawRow_of_nodup ox oy b fb c r (cs := List.range 8) List.nodup_range (by simp; omega)
    rw [Frame.draw, ih (oy + 1) _ (by omega), row]
    rcases offset : rowOffset oy r with _ | d
    · have beyond : bs[31]? = none := List.getElem?_eq_none (by omega)
      simp [rowOffset_succ_of_zero offset, beyond]
    · simp [rowOffset_succ_of_succ offset]

theorem State.readBytes_getElem? (s : State) (a n k : Nat) :
    (s.readBytes a n)[k]? = if k < n then some (s.readByte (a + k)) else none := by
  split
  · rename_i hk
    have inside : k < (s.readBytes a n).length := by rwa [State.readBytes_length]
    rw [List.getElem?_eq_getElem inside, State.readBytes_getElem s a n k hk]
  · exact List.getElem?_eq_none (by rw [State.readBytes_length]; omega)

variable (s : State) (x y : Reg) (n : BitVec 4)

theorem spriteSets_eq (c : Fin 64) (r : Fin 32) :
    SpriteSets s x y n c r =
      (decide (columnOffset (s.reg x).toNat c < 8) && decide (rowOffset (s.reg y).toNat r < n.toNat) &&
        spriteBit (s.readByte (s.i.toNat + rowOffset (s.reg y).toNat r)) (columnOffset (s.reg x).toNat c)) := rfl

/-- R170, R172: the framebuffer DXYN leaves, pixel by pixel. -/
theorem State.pixel_drawn (c : Fin 64) (r : Fin 32) :
    (s.drawn x y n).pixel c r = (s.fb.pixel c r ^^ SpriteSets s x y n c r) := by
  have short : (s.readBytes s.i.toNat n.toNat).length ≤ 32 := by
    have := n.isLt
    rw [State.readBytes_length]
    omega
  rw [State.drawn, Frame.pixel_draw _ _ _ _ _ _ short, State.readBytes_getElem?, spriteSets_eq]
  split <;> simp [*]

/-- The sprite's pixels depend on the origin modulo the surface, on I and on memory alone. -/
theorem spriteSets_congr {s t : State} (i : t.i = s.i) (mem : ∀ a, t.readByte a = s.readByte a)
    (hx : (t.reg x).toNat % 64 = (s.reg x).toNat % 64) (hy : (t.reg y).toNat % 32 = (s.reg y).toNat % 32)
    (c : Fin 64) (r : Fin 32) : SpriteSets t x y n c r = SpriteSets s x y n c r := by
  simp only [SpriteSets, i, mem, hx, hy]

/-! ### The statements -/

/-- Settles O51, by whether the last byte of the sprite is inside memory. -/
theorem drawXorsEveryPixel : Obligations.DrawXorsEveryPixel := by
  refine fun x y n => ⟨decode_encode (i := .drw x y n) rfl, fun s => ⟨fun outside => ?_, fun inside => ?_⟩⟩
  · exact ⟨_, exec_drw_of_outside s x y n outside, faultsWith_raiseBy _ (.drw x y n) s⟩
  · refine ⟨_, exec_drw_of_inside s x y n inside, retiresTo_goto _ _, fun c r => ?_, (changesOnly_draw s _ _).goto _⟩
    simpa using s.pixel_drawn x y n c r

/-- Settles O52: the flag is `Frame.erasedSome`, read off the pixels. -/
theorem collisionFlag : Obligations.CollisionFlag := by
  intro x y n s inside
  have fb : (((s.setFrame (s.drawn x y n)).setCollision (Frame.erasedSome s.fb (s.drawn x y n))).goto (s.pc + 2)).fb =
      s.drawn x y n := by simp
  refine ⟨_, exec_drw_of_inside s x y n inside, fun c r => ?_, fun unchanged => ?_, fun collision => ⟨fun erased => ?_,
    fun kept => ?_⟩⟩
  · rw [fb, State.pixel_drawn]
  · simp [State.reg_setCollision, unchanged]
  · rw [fb] at erased
    have hit := (Frame.erasedSome_iff s.fb (s.drawn x y n)).2 erased
    simp [State.reg_setCollision, collision, hit, flagByte]
  · rw [fb] at kept
    have noHit : Frame.erasedSome s.fb (s.drawn x y n) = false := by
      refine Bool.eq_false_iff.2 fun hit => ?_
      obtain ⟨c, r, on, off⟩ := (Frame.erasedSome_iff s.fb (s.drawn x y n)).1 hit
      rw [kept c r on] at off
      cases off
    simp [State.reg_setCollision, collision, noHit, flagByte]

/-- Settles O53: the two sprites cancel where they have one origin, and only a write of VF moves it. -/
theorem drawingTwiceRestores : Obligations.DrawingTwiceRestores := by
  intro x y n s inside
  obtain ⟨t, first, -, pixels, frame⟩ := ((drawXorsEveryPixel x y n).2 s).2 inside
  have i : t.i = s.i := frame.i rfl
  obtain ⟨u, second, -, pixels', -⟩ := ((drawXorsEveryPixel x y n).2 t).2 (i ▸ inside)
  have both (c : Fin 64) (r : Fin 32) :
      u.fb.pixel c r = (s.fb.pixel c r ^^ SpriteSets s x y n c r ^^ SpriteSets t x y n c r) := by
    rw [pixels', pixels]
  have restores (hx : (t.reg x).toNat % 64 = (s.reg x).toNat % 64) (hy : (t.reg y).toNat % 32 = (s.reg y).toNat % 32) :
      u.fb = s.fb := by
    refine Frame.ext_pixel fun c r => ?_
    rw [both, spriteSets_congr x y n i (fun a => frame.mem a (by simp)) hx hy]
    simp
  refine ⟨t, u, first, second, both, restores, fun sameOrigin => ?_⟩
  have kept (k : Reg) (hk : s.cfg.drawVf = .unchanged ∨ k ≠ VF) : t.reg k = s.reg k :=
    frame.regs k (by rcases hk with mode | other <;> simp [*])
  have hx : t.reg x = s.reg x := kept x (sameOrigin.imp_right And.left)
  have hy : t.reg y = s.reg y := kept y (sameOrigin.imp_right And.right)
  exact restores (by rw [hx]) (by rw [hy])

end Sys2Proof.Machine
end
